-- ==== Sys2Proof/Word.lean ====
section
/-! DEFINITION. The word and byte types, and the readings of a word the spec's notation names (00_scope.md R6, R12, R13). -/

namespace Sys2Proof

/-- "Word: a 32-bit signed integer, the universal unit of register/memory/ALU exchange" (R6): a 32-bit pattern. -/
abbrev Word := BitVec 32

/-- One byte of the data memory or of the instruction stream. -/
abbrev Byte := BitVec 8

/-- A general register's index (R7). -/
abbrev RegIx := BitVec 5

/-- `s32(v)` of R13: the two's-complement reading. -/
abbrev s32 (v : Word) : Int := v.toInt

/-- `u32(v)` of R13: the unsigned reading. -/
abbrev u32 (v : Word) : Nat := v.toNat

/-- `wrap32(n)` of R13: the Word whose unsigned reading is `n mod 2^32`. -/
abbrev wrap32 (n : Int) : Word := BitVec.ofInt 32 n

end Sys2Proof
end

