-- ==== Sys2Proof/Config.lean ====
section
/-! DEFINITION. The parameters of the CORE (00_scope.md R8, R9, R10): fixed at construction, changed by nothing the
CORE does. No rule draws a value (40_datapath.md R128), so there is no free value here. -/

namespace Sys2Proof

/-- The parameter `ENC` (R10): the numbers of the opcodes and ALU function codes that the source leaves open. The
R-type opcode and PRINT's function code are 0 and no parameter. -/
structure Enc where
  opJ : BitVec 6
  opBeq : BitVec 6
  opBne : BitVec 6
  opLw : BitVec 6
  opSw : BitVec 6
  fnAdd : BitVec 6
  fnSub : BitVec 6
  fnAnd : BitVec 6
  fnOr : BitVec 6
  fnNor : BitVec 6
  fnSlt : BitVec 6
  deriving DecidableEq, Repr

/-- The default `ENC` of 30_encoding.md R77 and R78. PRESUMED by the spec (decisions D1, D2: the MIPS-I numbers);
log entry 1. -/
def Enc.default : Enc where
  opJ := 0x02
  opBeq := 0x04
  opBne := 0x05
  opLw := 0x23
  opSw := 0x2B
  fnAdd := 0x20
  fnSub := 0x22
  fnAnd := 0x24
  fnOr := 0x25
  fnNor := 0x27
  fnSlt := 0x2A

/-- The opcodes `ENC` gives, in the order of R77. -/
def Enc.opcodes (e : Enc) : List (BitVec 6) := [e.opJ, e.opBeq, e.opBne, e.opLw, e.opSw]

/-- The function codes `ENC` gives, in the order of R78. -/
def Enc.functs (e : Enc) : List (BitVec 6) := [e.fnAdd, e.fnSub, e.fnAnd, e.fnOr, e.fnNor, e.fnSlt]

/-- What the CORE is constructed with: `CODE` and `INIT_MEM` (R9), `MEM_SIZE` (R8), `ENC` (R10). -/
structure Config where
  code : List Byte
  initMem : List Byte
  memSize : Nat
  enc : Enc
  deriving DecidableEq, Repr

/-- The reference configuration (R8: 1 MiB) with the default `ENC`, an empty instruction stream and an empty image. -/
def Config.default : Config where
  code := []
  initMem := []
  memSize := 1048576
  enc := Enc.default

end Sys2Proof
end

