-- ==== Sys2Proof/Machine/State.lean ====
section
/-! DEFINITION. The state of the CORE (10_state.md R20), the records a fault leaves (60_exceptions.md R210), the outcomes
that are no next state, and the state right after construction (10_state.md R44). -/

namespace Sys2Proof.Machine

/-- The data memory as plain data: the bytes that are not 0, by strictly rising address. An address not listed reads
as 0, the value construction gives every byte past the image (10_state.md R44, 20_memory.md R63). -/
abbrev Memory := List Host.Cell

/-- The ten control states (10_state.md R35). -/
inductive FsmState where
  | fetch
  | decode
  | rTypeExecute
  | rTypeWriteback
  | jType
  | iTypeAddressCompute
  | iTypeMemoryRead
  | iTypeMemoryWrite
  | iTypeReadWriteback
  | branch
  deriving DecidableEq, Repr

/-- A selector of the decision bundle (40_datapath.md R100), as `UnknownSelector` names it (R213). -/
inductive Selector where
  | aluSrcA
  | aluSrcB
  | pcSource
  deriving DecidableEq, Repr

/-- The fault table of 60_exceptions.md R210: a name and the diagnostic it records. -/
inductive FaultRecord where
  | unknownOpcode (opcode : BitVec 6)
  | unknownFunct (funct : BitVec 6)
  | unknownSelector (selector : Selector)
  | reg0Write (during : FsmState)
  | memOutOfRange (address : Int)
  | fetchOutOfRange (address : Word)
  | codeLength (length : Nat)
  | imageTooLarge (length : Nat)
  deriving DecidableEq, Repr

/-- The state of the CORE: the tuple of R20, and the configuration it was constructed with. -/
structure State where
  /-- `CODE`, `INIT_MEM`, `MEM_SIZE`, `ENC` (R9, R38): no step writes it. It stands in the state so that one step is a
  function of the state alone; log entry 3. -/
  cfg : Config
  /-- `x[0..31]` (R21) -/
  regs : Vector Word 32
  /-- `PC` (R26) -/
  pc : Word
  /-- the ALU's status bit (R29) -/
  zero : Bool
  /-- `IR`, the current instruction (R30) -/
  ir : Word
  /-- `operand_a` (R31) -/
  operandA : Word
  /-- `operand_b` (R31) -/
  operandB : Word
  /-- `alu_output` (R32) -/
  aluOutput : Word
  /-- `data` (R33) -/
  data : Word
  /-- `fsm_opcode` (R34) -/
  fsmOpcode : BitVec 6
  /-- `fsm_funct` (R34) -/
  fsmFunct : BitVec 6
  /-- `fsm_state` (R35) -/
  fsmState : FsmState
  /-- `mem[0..MEM_SIZE-1]` (R37) -/
  mem : Memory
  /-- `snapshot[0..MEM_SIZE-1]` (R37) -/
  snapshot : Memory
  /-- `out`, the debug output channel, oldest first (R39) -/
  out : List Word
  /-- `fault` (R40) -/
  fault : Option FaultRecord
  deriving DecidableEq, Repr

/-- Why the machine stops. Each of the first six carries its diagnostic (R210) and the state the machine stops in: the
steps of the faulting cycle before the raising step have taken effect (R221) and `fault` holds the record (R40). Every
constructor is the spec's own fatal condition, so none stands for behaviour the model leaves out. -/
inductive Fault where
  /-- Raised by the next-state function (R112, R211): an opcode that is none of the six. Safe: the CORE stops too. -/
  | unknownOpcode (opcode : BitVec 6) (stopped : State)
  /-- Raised by the ALU (R147, R212): a function code that is none of the six. Safe: the CORE stops too. -/
  | unknownFunct (funct : BitVec 6) (stopped : State)
  /-- Raised for a selector number outside its enumeration (R213). No cycle raises it: the selectors are enumerated.
  Safe. -/
  | unknownSelector (selector : Selector) (stopped : State)
  /-- Raised by a write-back to register 0 (R23, R214). Safe: the CORE stops too. -/
  | reg0Write (during : FsmState) (stopped : State)
  /-- Raised by a data access outside `[0, MEM_SIZE - 4]` (R54, R215). Safe: the CORE stops too. -/
  | memOutOfRange (address : Int) (stopped : State)
  /-- Raised by a `Fetch` past the end of the stream (R58, R216). Safe: the source leaves this read open and the spec
  stops (decision D10). -/
  | fetchOutOfRange (address : Word) (stopped : State)
  /-- Raised by construction (R217): `CODE` whose length is no multiple of 4 or is 2^32 or more. Safe. -/
  | codeLength (length : Nat)
  /-- Raised by construction (R217): `INIT_MEM` longer than `MEM_SIZE`. Safe. -/
  | imageTooLarge (length : Nat)
  deriving DecidableEq, Repr

/-- Why a step, a `clock()` or a `reset()` is not admitted. -/
inductive Refusal where
  /-- Raised by `exec` for an instruction that has no meaning yet. Safe. No arm does. -/
  | notModelled (mnemonic : String)
  /-- Raised by `step`, `hostClock` and `hostReset` on a state whose `fault` is set: "`clock()` and `reset()` have no defined
  behaviour and a model admits neither" (R220). Safe. -/
  | faulted (record : FaultRecord)
  deriving DecidableEq, Repr

/-- The bytes of a memory image from address `a` on, the bytes that are 0 left unlisted (R63). -/
def imageFrom (a : Nat) : List Byte → Memory
  | [] => []
  | b :: bs => if b = 0 then imageFrom (a + 1) bs else (a, b) :: imageFrom (a + 1) bs

/-- The values after construction (R44, R240) from a configuration that construction accepts. `zero`, `fsm_opcode`,
`fsm_funct` and `out` are the spec's decision D15; log entry 6. -/
def State.fresh (c : Config) : State where
  cfg := c
  regs := Vector.replicate 32 0
  pc := 0
  zero := false
  ir := 0
  operandA := 0
  operandB := 0
  aluOutput := 0
  data := 0
  fsmOpcode := 0
  fsmFunct := 0
  fsmState := .fetch
  mem := imageFrom 0 c.initMem
  snapshot := imageFrom 0 c.initMem
  out := []
  fault := none

/-- The machine right after construction (R44) from the reference configuration, which holds no program: a program
comes from outside, as `CODE` (log entry 4). -/
def State.reset : State := State.fresh Config.default

end Sys2Proof.Machine
end

