-- ==== Sys2Proof/Machine/Flags.lean ====
section
/-! DEFINITION. The CORE's one flag (10_state.md R29): `zero`, written by every ALU invocation. There is no carry, overflow
or sign flag. -/

namespace Sys2Proof.Machine

/-- `zero <- (result == 0)` (41_alu_rtype.md R148). -/
def zeroOf (result : Word) : Bool := result == 0

/-- The branch test of step 7 (40_datapath.md R121): `zero XOR negate_zero`. -/
def branchTest (zero negateZero : Bool) : Bool := Bool.xor zero negateZero

end Sys2Proof.Machine
end

