-- ==== Sys2Proof/Syntax.lean ====
section
/-! DEFINITION. The twelve instructions of the CORE ISA (00_scope.md R2; the rows of opcode_table.json), as syntax. -/

namespace Sys2Proof

/-- An instruction with every bit of its word that is not an opcode or a function code. The fields a rule calls
ignored (30_encoding.md R83) are kept, under the name `ign`, because the latches `IR` and `data` hold the whole word
(10_state.md R30): so an instruction and its word say the same. Every field has the width of its encoding (R71). -/
inductive Instr where
  /-- `add rd, rs, rt` (R150); `ign` is bits 10:6 -/
  | add (rs rt rd : RegIx) (ign : BitVec 5)
  /-- `sub rd, rs, rt` (R151) -/
  | sub (rs rt rd : RegIx) (ign : BitVec 5)
  /-- `and rd, rs, rt` (R152) -/
  | and (rs rt rd : RegIx) (ign : BitVec 5)
  /-- `or rd, rs, rt` (R153) -/
  | or (rs rt rd : RegIx) (ign : BitVec 5)
  /-- `nor rd, rs, rt` (R154) -/
  | nor (rs rt rd : RegIx) (ign : BitVec 5)
  /-- `slt rd, rs, rt` (R155) -/
  | slt (rs rt rd : RegIx) (ign : BitVec 5)
  /-- `print rs` (R200); the fields rt, rd and bits 10:6 are ignored, but rt is still read into `operand_b` (R83) -/
  | print (rs rt rd : RegIx) (ign : BitVec 5)
  /-- `lw rt, imm8(rs)` (R161); `ign` is bits 15:8 -/
  | lw (rs rt : RegIx) (ign imm8 : BitVec 8)
  /-- `sw rt, imm8(rs)` (R162) -/
  | sw (rs rt : RegIx) (ign imm8 : BitVec 8)
  /-- `beq rs, rt, imm8` (R181) -/
  | beq (rs rt : RegIx) (ign imm8 : BitVec 8)
  /-- `bne rs, rt, imm8` (R182) -/
  | bne (rs rt : RegIx) (ign imm8 : BitVec 8)
  /-- `j addr26` (R183) -/
  | j (addr26 : BitVec 26)
  deriving DecidableEq, Repr

/-- Why the decoder refuses bytes: the two verdicts of 30_encoding.md R79, and fewer than the four bytes of R70. -/
inductive Reject where
  | truncated
  | illegalOpcode (opcode : BitVec 6)
  | illegalFunct (funct : BitVec 6)
  deriving DecidableEq, Repr

/-- The same instruction with the ignored bits of R83 zero: what the assembler syntax of R86 writes. -/
def Instr.clearIgnored : Instr → Instr
  | .add rs rt rd _ => .add rs rt rd 0
  | .sub rs rt rd _ => .sub rs rt rd 0
  | .and rs rt rd _ => .and rs rt rd 0
  | .or rs rt rd _ => .or rs rt rd 0
  | .nor rs rt rd _ => .nor rs rt rd 0
  | .slt rs rt rd _ => .slt rs rt rd 0
  | .print rs _ _ _ => .print rs 0 0 0
  | .lw rs rt _ imm8 => .lw rs rt 0 imm8
  | .sw rs rt _ imm8 => .sw rs rt 0 imm8
  | .beq rs rt _ imm8 => .beq rs rt 0 imm8
  | .bne rs rt _ imm8 => .bne rs rt 0 imm8
  | .j addr26 => .j addr26

/-- The register an instruction writes back, if any (R76): rd of an R-type operation, rt of LW. -/
def Instr.destReg : Instr → Option RegIx
  | .add _ _ rd _ => some rd
  | .sub _ _ rd _ => some rd
  | .and _ _ rd _ => some rd
  | .or _ _ rd _ => some rd
  | .nor _ _ rd _ => some rd
  | .slt _ _ rd _ => some rd
  | .print _ _ _ _ => none
  | .lw _ rt _ _ => some rt
  | .sw _ _ _ _ => none
  | .beq _ _ _ _ => none
  | .bne _ _ _ _ => none
  | .j _ => none

/-- The number of `clock()` cycles an instruction takes when it completes (70_reset_and_hazards.md R249). -/
def Instr.cycles : Instr → Nat
  | .add _ _ _ _ => 4
  | .sub _ _ _ _ => 4
  | .and _ _ _ _ => 4
  | .or _ _ _ _ => 4
  | .nor _ _ _ _ => 4
  | .slt _ _ _ _ => 4
  | .print _ _ _ _ => 1
  | .lw _ _ _ _ => 5
  | .sw _ _ _ _ => 4
  | .beq _ _ _ _ => 3
  | .bne _ _ _ _ => 3
  | .j _ => 3

end Sys2Proof
end

