-- ==== Sys2Proof/WellFormed.lean ====
section
/-! DEFINITION. What makes a configuration, and an instruction's words, well formed. An `Instr` needs no check of its own:
each of its fields has exactly the width of its encoding (30_encoding.md R71), and every word is one of the twelve
instructions or illegal (R84). What can be ill formed is the numbering `ENC` that gives instructions their words, and
the rest of the configuration. -/

namespace Sys2Proof

/-- Constraint of 00_scope.md R10 on the opcodes: five distinct nonzero values. -/
def Enc.opcodesOk (e : Enc) : Bool := decide e.opcodes.Nodup && !e.opcodes.contains 0

/-- Constraint of R10 on the function codes: six distinct nonzero values. -/
def Enc.functsOk (e : Enc) : Bool := decide e.functs.Nodup && !e.functs.contains 0

/-- `ENC` meets both constraints of R10. -/
abbrev Enc.Valid (e : Enc) : Prop := e.opcodesOk = true ∧ e.functsOk = true

/-- Constraint of R8: `4 <= MEM_SIZE <= 2^31`. -/
def Config.memSizeOk (c : Config) : Bool := decide (4 ≤ c.memSize) && decide (c.memSize ≤ 2 ^ 31)

/-- Constraint of R9 on `CODE`: its length is a multiple of 4 and less than 2^32. -/
def Config.codeOk (c : Config) : Bool := decide (c.code.length % 4 = 0) && decide (c.code.length < 2 ^ 32)

/-- Constraint of R9 on `INIT_MEM`: at most `MEM_SIZE` bytes. -/
def Config.imageOk (c : Config) : Bool := decide (c.initMem.length ≤ c.memSize)

/-- A configuration all of whose parameters meet their constraints. -/
abbrev Config.Valid (c : Config) : Prop :=
  c.enc.Valid ∧ c.memSizeOk = true ∧ c.codeOk = true ∧ c.imageOk = true

end Sys2Proof
end

