-- ==== Sys2Proof/Decode.lean ====
section
/-! DEFINITION. From bytes to instructions and back (30_encoding.md R70 to R84). -/

namespace Sys2Proof

/-! ### The fields of R71 -/

def opcodeField (w : Word) : BitVec 6 := w.extractLsb' 26 6
def rsField (w : Word) : RegIx := w.extractLsb' 21 5
def rtField (w : Word) : RegIx := w.extractLsb' 16 5
def rdField (w : Word) : RegIx := w.extractLsb' 11 5
/-- Bits 10:6, ignored in every R-type word (R83). -/
def ignRField (w : Word) : BitVec 5 := w.extractLsb' 6 5
def functField (w : Word) : BitVec 6 := w.extractLsb' 0 6
/-- Bits 15:8, ignored in every I-type word (R83). -/
def ignIField (w : Word) : BitVec 8 := w.extractLsb' 8 8
def imm8Field (w : Word) : BitVec 8 := w.extractLsb' 0 8
def addr26Field (w : Word) : BitVec 26 := w.extractLsb' 0 26

/-! ### Words and bytes: big-endian (R56, R70) -/

/-- Four bytes as a word, the first the most significant. -/
def wordOfBytes (b0 b1 b2 b3 : Byte) : Word := b0 ++ b1 ++ b2 ++ b3

/-- The bytes of a word, the most significant first. -/
def bytesOfWord (w : Word) : List Byte :=
  [w.extractLsb' 24 8, w.extractLsb' 16 8, w.extractLsb' 8 8, w.extractLsb' 0 8]

/-! ### Decoding -/

/-- An R-type word with opcode 0 (R72, R78, R80): PRINT when the function code is 0, else the operation it names. -/
def decodeRType (e : Enc) (w : Word) : Except Reject Instr :=
  if functField w = 0 then .ok (.print (rsField w) (rtField w) (rdField w) (ignRField w))
  else if functField w = e.fnAdd then .ok (.add (rsField w) (rtField w) (rdField w) (ignRField w))
  else if functField w = e.fnSub then .ok (.sub (rsField w) (rtField w) (rdField w) (ignRField w))
  else if functField w = e.fnAnd then .ok (.and (rsField w) (rtField w) (rdField w) (ignRField w))
  else if functField w = e.fnOr then .ok (.or (rsField w) (rtField w) (rdField w) (ignRField w))
  else if functField w = e.fnNor then .ok (.nor (rsField w) (rtField w) (rdField w) (ignRField w))
  else if functField w = e.fnSlt then .ok (.slt (rsField w) (rtField w) (rdField w) (ignRField w))
  else .error (.illegalFunct (functField w))

/-- `classify` of R79, with the instruction's fields: one word is one of the twelve instructions or illegal. -/
def decodeWord (e : Enc) (w : Word) : Except Reject Instr :=
  if opcodeField w = 0 then decodeRType e w
  else if opcodeField w = e.opJ then .ok (.j (addr26Field w))
  else if opcodeField w = e.opBeq then .ok (.beq (rsField w) (rtField w) (ignIField w) (imm8Field w))
  else if opcodeField w = e.opBne then .ok (.bne (rsField w) (rtField w) (ignIField w) (imm8Field w))
  else if opcodeField w = e.opLw then .ok (.lw (rsField w) (rtField w) (ignIField w) (imm8Field w))
  else if opcodeField w = e.opSw then .ok (.sw (rsField w) (rtField w) (ignIField w) (imm8Field w))
  else .error (.illegalOpcode (opcodeField w))

/-- The instruction at the head of a byte sequence, and the bytes after it: every instruction is 4 bytes (R70). -/
def decode (e : Enc) : List Byte → Except Reject (Instr × List Byte)
  | b0 :: b1 :: b2 :: b3 :: rest =>
    match decodeWord e (wordOfBytes b0 b1 b2 b3) with
    | .ok i => .ok (i, rest)
    | .error r => .error r
  | _ => .error .truncated

/-! ### Encoding -/

/-- The R-type format (R72), opcode 0. -/
def encodeRType (rs rt rd : RegIx) (ign : BitVec 5) (fn : BitVec 6) : Word :=
  (0 : BitVec 6) ++ rs ++ rt ++ rd ++ ign ++ fn

/-- The I-type format (R73). -/
def encodeIType (op : BitVec 6) (rs rt : RegIx) (ign imm8 : BitVec 8) : Word :=
  op ++ rs ++ rt ++ ign ++ imm8

/-- The J-type format (R74). -/
def encodeJType (op : BitVec 6) (addr26 : BitVec 26) : Word := op ++ addr26

/-- The word of an instruction (R72 to R74, R77, R78). -/
def encode (e : Enc) : Instr → Word
  | .add rs rt rd ign => encodeRType rs rt rd ign e.fnAdd
  | .sub rs rt rd ign => encodeRType rs rt rd ign e.fnSub
  | .and rs rt rd ign => encodeRType rs rt rd ign e.fnAnd
  | .or rs rt rd ign => encodeRType rs rt rd ign e.fnOr
  | .nor rs rt rd ign => encodeRType rs rt rd ign e.fnNor
  | .slt rs rt rd ign => encodeRType rs rt rd ign e.fnSlt
  | .print rs rt rd ign => encodeRType rs rt rd ign 0
  | .lw rs rt ign imm8 => encodeIType e.opLw rs rt ign imm8
  | .sw rs rt ign imm8 => encodeIType e.opSw rs rt ign imm8
  | .beq rs rt ign imm8 => encodeIType e.opBeq rs rt ign imm8
  | .bne rs rt ign imm8 => encodeIType e.opBne rs rt ign imm8
  | .j addr26 => encodeJType e.opJ addr26

/-! ### The opcode table's words -/

/-- A row's word: its `nbits` low bits, every bit above them 0, as one 32-bit instruction word (R70). -/
def tableWord (nbits w : Nat) : Word := BitVec.ofNat 32 (w % 2 ^ nbits)

/-- What the decoder reads from a row's word under the default `ENC`, laid out big-endian. -/
def decodeTableWord (nbits w : Nat) : Option Instr :=
  match decode Enc.default (bytesOfWord (tableWord nbits w)) with
  | .ok (i, _) => some i
  | .error _ => none

end Sys2Proof
end

