-- ==== Sys2Proof/Machine/Ops.lean ====
section
/-! DEFINITION. The named operations over the state: raising a fault, the data memory, the register file, the instruction
stream, construction and `reset()`. -/

namespace Sys2Proof.Machine

/-! ### Raising a fault (00_scope.md R16; 60_exceptions.md R219 to R222)

The CORE has no trap: nothing is saved, no handler is entered (R223), and there is no return (R224). A raise is a stop. -/

/-- The fault a record stands for, stopped in state `s`. -/
def FaultRecord.stop : FaultRecord → State → Fault
  | .unknownOpcode opcode, s => .unknownOpcode opcode s
  | .unknownFunct funct, s => .unknownFunct funct s
  | .unknownSelector selector, s => .unknownSelector selector s
  | .reg0Write during, s => .reg0Write during s
  | .memOutOfRange address, s => .memOutOfRange address s
  | .fetchOutOfRange address, s => .fetchOutOfRange address s
  | .codeLength length, _ => .codeLength length
  | .imageTooLarge length, _ => .imageTooLarge length

/-- The record of a fault (R210). -/
def Fault.record : Fault → FaultRecord
  | .unknownOpcode opcode _ => .unknownOpcode opcode
  | .unknownFunct funct _ => .unknownFunct funct
  | .unknownSelector selector _ => .unknownSelector selector
  | .reg0Write during _ => .reg0Write during
  | .memOutOfRange address _ => .memOutOfRange address
  | .fetchOutOfRange address _ => .fetchOutOfRange address
  | .codeLength length => .codeLength length
  | .imageTooLarge length => .imageTooLarge length

/-- The state the machine stopped in; none for a refused construction, which "yields no CORE state" (R217). -/
def Fault.stopped : Fault → Option State
  | .unknownOpcode _ s => some s
  | .unknownFunct _ s => some s
  | .unknownSelector _ s => some s
  | .reg0Write _ s => some s
  | .memOutOfRange _ s => some s
  | .fetchOutOfRange _ s => some s
  | .codeLength _ => none
  | .imageTooLarge _ => none

/-- `raise` (R16): the CORE "records `fault <- (code, info)` and performs no further step" (R219). `s` is the state with
the steps before the raising one done (R221). -/
def raise {α : Type} (r : FaultRecord) (s : State) : Except Fault α :=
  .error (r.stop { s with fault := some r })

/-- An operation that ends in a state or a fault, as a step's outcome. -/
def outcome : Except Fault State → Host.Outcome State Fault Refusal
  | .ok s => .next s
  | .error f => .fault f

/-- `fault_code` of 60_exceptions.md R236: the codes of R210 (decision D22). -/
def FaultRecord.code : FaultRecord → BitVec 4
  | .unknownOpcode _ => 1
  | .unknownFunct _ => 2
  | .unknownSelector _ => 3
  | .reg0Write _ => 4
  | .memOutOfRange _ => 5
  | .fetchOutOfRange _ => 6
  | .codeLength _ => 7
  | .imageTooLarge _ => 8

/-- The position of a state in the list of 10_state.md R35. DESIGN CHOICE: the spec numbers the states nowhere; the
number is read by `FaultRecord.info` alone (log entry 9). -/
def FsmState.number : FsmState → Nat
  | .fetch => 0
  | .decode => 1
  | .rTypeExecute => 2
  | .rTypeWriteback => 3
  | .jType => 4
  | .iTypeAddressCompute => 5
  | .iTypeMemoryRead => 6
  | .iTypeMemoryWrite => 7
  | .iTypeReadWriteback => 8
  | .branch => 9

/-- The position of a selector in the list of R213's sentence. DESIGN CHOICE, as `FsmState.number` (log entry 9). -/
def Selector.number : Selector → Nat
  | .aluSrcA => 0
  | .aluSrcB => 1
  | .pcSource => 2

/-- `fault_info` of R236: the diagnostic of R210 as 32 bits. DESIGN CHOICE: of a length of 2^32 or more (`CodeLength`, `ImageTooLarge`)
the low 32 bits; the spec gives the port 32 bits and does not say what it then shows (log entry 24). The record holds the whole
length. -/
def FaultRecord.info : FaultRecord → Word
  | .unknownOpcode opcode => opcode.setWidth 32
  | .unknownFunct funct => funct.setWidth 32
  | .unknownSelector selector => BitVec.ofNat 32 selector.number
  | .reg0Write during => BitVec.ofNat 32 during.number
  | .memOutOfRange address => wrap32 address
  | .fetchOutOfRange address => address
  | .codeLength length => BitVec.ofNat 32 length
  | .imageTooLarge length => BitVec.ofNat 32 length

/-! ### The data memory (20_memory.md) -/

/-- The byte at an address; an address not listed holds 0 (R63). -/
def Memory.read : Memory → Nat → Byte
  | [], _ => 0
  | (k, b) :: m, a => if k = a then b else Memory.read m a

/-- Store one byte, keeping the list's form: addresses rising, no byte 0. -/
def Memory.write : Memory → Nat → Byte → Memory
  | [], a, v => if v = 0 then [] else [(a, v)]
  | (k, b) :: m, a, v =>
    if a < k then (if v = 0 then (k, b) :: m else (a, v) :: (k, b) :: m)
    else if a = k then (if v = 0 then m else (a, v) :: m)
    else (k, b) :: Memory.write m a v

/-- The one form of a memory: addresses strictly rising and no listed byte equal to what an unlisted address reads as,
so that equal memories are equal data. -/
abbrev Memory.wf (m : Memory) : Prop :=
  m.Pairwise (fun c d => c.1 < d.1) ∧ ∀ c ∈ m, c.2 ≠ 0

/-- Every listed address is below `n`. -/
abbrev Memory.below (n : Nat) (m : Memory) : Prop := ∀ c ∈ m, c.1 < n

/-- The four bytes at `[a, a + 4)`, most significant first (R52). -/
def Memory.readWord (m : Memory) (a : Nat) : Word :=
  wordOfBytes (m.read a) (m.read (a + 1)) (m.read (a + 2)) (m.read (a + 3))

/-- The big-endian encoding of `v` into `[a, a + 4)` (R53). -/
def Memory.writeWord (m : Memory) (a : Nat) (v : Word) : Memory :=
  (((m.write a (v.extractLsb' 24 8)).write (a + 1) (v.extractLsb' 16 8)).write (a + 2) (v.extractLsb' 8 8)).write
    (a + 3) (v.extractLsb' 0 8)

/-- `check_data_range` (R54, R55): `0 <= addr` and `addr + 4 <= MEM_SIZE`, without wrap, of the signed reading. -/
def dataInRange (memSize : Nat) (addr : Word) : Bool :=
  decide (0 ≤ s32 addr) && decide (s32 addr + 4 ≤ memSize)

/-- The byte address of an address in range. -/
def byteAddr (addr : Word) : Nat := (s32 addr).toNat

/-- `MemRead(addr, 4)` (R52). -/
def memRead (addr : Word) (s : State) : Except Fault Word :=
  if dataInRange s.cfg.memSize addr then .ok (s.mem.readWord (byteAddr addr))
  else raise (.memOutOfRange (s32 addr)) s

/-- The state with the four bytes at `a` replaced. -/
def State.storeWord (s : State) (a : Nat) (v : Word) : State := { s with mem := s.mem.writeWord a v }

/-- `MemWrite(addr, 4, v)` (R53): an access out of range raises before any byte is written (R54). -/
def memWrite (addr v : Word) (s : State) : Except Fault State :=
  if dataInRange s.cfg.memSize addr then .ok (s.storeWord (byteAddr addr) v)
  else raise (.memOutOfRange (s32 addr)) s

/-! ### The instruction stream (R51, R58) -/

/-- A byte of `CODE`. -/
def codeByte (code : List Byte) (n : Nat) : Byte := code.getD n 0

/-- The word of `CODE` at byte offset `n`, big-endian (R56). -/
def codeWord (code : List Byte) (n : Nat) : Word :=
  wordOfBytes (codeByte code n) (codeByte code (n + 1)) (codeByte code (n + 2)) (codeByte code (n + 3))

/-- All four bytes at `addr` lie in the stream. -/
def fetchInRange (addr : Word) (s : State) : Bool := decide (u32 addr + 4 ≤ s.cfg.code.length)

/-- `InstrRead(addr, false)` (R58): the zero word when any byte lies past the end (decision D10). -/
def instrProbe (addr : Word) (s : State) : Word :=
  if fetchInRange addr s then codeWord s.cfg.code (u32 addr) else 0

/-- `InstrRead(addr, latching)` (R58). -/
def instrRead (addr : Word) (latching : Bool) (s : State) : Except Fault Word :=
  if latching && !fetchInRange addr s then raise (.fetchOutOfRange addr) s
  else .ok (instrProbe addr s)

/-! ### The register file (10_state.md R21 to R25) -/

/-- `x[i]`: register 0 always reads 0 (R22). -/
def State.readReg (s : State) (i : RegIx) : Word := if i = 0 then 0 else s.regs[i.toNat]'i.isLt

/-- The state with register `i`'s slot replaced. -/
def State.setReg (s : State) (i : RegIx) (v : Word) : State :=
  { s with regs := s.regs.set i.toNat v i.isLt }

/-- `x[i] <- v`, in FSM state `during`: a write to index 0 is fatal and nothing is written (R23, R214). -/
def writeReg (during : FsmState) (i : RegIx) (v : Word) (s : State) : Except Fault State :=
  if i = 0 then raise (.reg0Write during) s else .ok (s.setReg i v)

/-! ### The instruction latch and the output channel -/

/-- Step 5 of a cycle whose latch is enabled (40_datapath.md R117): the word, the FSM's copies of its opcode and
function code, and the two register operands. -/
def State.latch (s : State) (w : Word) : State :=
  { s with
    ir := w
    fsmOpcode := opcodeField w
    fsmFunct := functField w
    operandA := s.readReg (rsField w)
    operandB := s.readReg (rtField w) }

/-- `out.append(v)` (00_scope.md R16). -/
def State.appendOut (s : State) (v : Word) : State := { s with out := s.out ++ [v] }

/-- The value `clock()` returns, a function of the state the cycle leaves (40_datapath.md R125; decision D12). -/
def State.running (s : State) : Bool :=
  !(decide (s.cfg.code.length ≤ u32 s.pc) && decide (s.fsmState = .fetch))

/-- One line of the debug output as the host renders it (44_print.md R201; decision D20): the decimal numeral of the
signed reading, `-` before a negative one, and one line terminator. -/
def renderWord (v : Word) : String := toString (s32 v) ++ "\n"

/-- The output channel as rendered: one line per word, in order (R201). -/
def State.rendered (s : State) : List String := s.out.map renderWord

/-! ### What the host does to the CORE (60_exceptions.md R233; 70_reset_and_hazards.md R240, R241) -/

/-- `new(CODE, INIT_MEM)` (R240): the refusals of R217, then the values of R44. -/
def construct (c : Config) : Host.Outcome State Fault Refusal :=
  if c.codeOk then
    if c.imageOk then .next (State.fresh c) else .fault (.imageTooLarge c.initMem.length)
  else .fault (.codeLength c.code.length)

/-- The values `reset()` gives (10_state.md R45): the latches, `snapshot` and `out` keep theirs (decision D16). -/
def State.resetCore (s : State) : State :=
  { s with
    pc := 0
    mem := s.snapshot
    regs := Vector.replicate 32 0
    zero := false
    fsmState := .fetch }

/-- `reset()` (R241), admitted only while no fault is set (R220). -/
def hostReset (s : State) : Host.Outcome State Fault Refusal :=
  match s.fault with
  | some r => .refused (.faulted r)
  | none => .next s.resetCore

end Sys2Proof.Machine
end

