-- ==== Sys2Proof/Machine/Alu.lean ====
section
/-! DEFINITION. The ALU (41_alu_rtype.md R140 to R149). -/

namespace Sys2Proof.Machine

/-- R141: `wrap32(s32(lhs) + s32(rhs))`. -/
def aluAdd (lhs rhs : Word) : Word := lhs + rhs
/-- R142: `wrap32(s32(lhs) - s32(rhs))`. -/
def aluSub (lhs rhs : Word) : Word := lhs - rhs
/-- R143. -/
def aluAnd (lhs rhs : Word) : Word := lhs &&& rhs
/-- R144. -/
def aluOr (lhs rhs : Word) : Word := lhs ||| rhs
/-- R145. -/
def aluNor (lhs rhs : Word) : Word := ~~~(lhs ||| rhs)
/-- R146: the comparison is signed. -/
def aluSlt (lhs rhs : Word) : Word := if s32 lhs < s32 rhs then 1 else 0

/-- `ALU(lhs, rhs, f)` (R140): none for a function code that is not one of the six (R147). -/
def alu (e : Enc) (lhs rhs : Word) (f : BitVec 6) : Option Word :=
  if f = e.fnAdd then some (aluAdd lhs rhs)
  else if f = e.fnSub then some (aluSub lhs rhs)
  else if f = e.fnAnd then some (aluAnd lhs rhs)
  else if f = e.fnOr then some (aluOr lhs rhs)
  else if f = e.fnNor then some (aluNor lhs rhs)
  else if f = e.fnSlt then some (aluSlt lhs rhs)
  else none

/-- One ALU invocation: the result, and the state with `zero` updated (R148); an unsupported code raises and leaves
`zero` alone (R147). -/
def runAlu (lhs rhs : Word) (f : BitVec 6) (s : State) : Except Fault (Word × State) :=
  match alu s.cfg.enc lhs rhs f with
  | some result => .ok (result, { s with zero := zeroOf result })
  | none => raise (.unknownFunct f) s

/-- The ALU's own `reset()` (R149): clears `zero` and touches nothing else. -/
def aluReset (s : State) : State := { s with zero := false }

end Sys2Proof.Machine
end

