-- ==== Sys2Proof/Machine/Operands.lean ====
section
/-! DEFINITION. Every operand form of the CORE: the two immediates (30_encoding.md R75), the data address
(42_load_store.md R160), the branch target (43_control_transfer.md R180) and the jump target (R184). -/

namespace Sys2Proof.Machine

/-- `Imm = zext_32(IR[7:0])` (R75). -/
def immOf (imm8 : BitVec 8) : Word := imm8.setWidth 32

/-- `ImmShift2 = zext_32(IR[7:0]) << 2` (R75). -/
def immShift2Of (imm8 : BitVec 8) : Word := imm8.setWidth 32 <<< 2

/-- `ea = wrap32(s32(x[rs]) + zext_32(imm8))` (R160): the offset is not scaled (decision D8). -/
def effectiveAddress (base : Word) (imm8 : BitVec 8) : Word := base + immOf imm8

/-- `T = wrap32(u32(A + 4) + (zext_32(imm8) << 2))` (R180; decision D7); `pc` is `A + 4`. -/
def branchTarget (pc : Word) (imm8 : BitVec 8) : Word := pc + immShift2Of imm8

/-- `PC[31:28] ++ addr26 ++ 0b00` (R184); `pc` is the register's value in the `JType` cycle, `A + 4` (decision D28). -/
def jumpTarget (pc : Word) (addr26 : BitVec 26) : Word := pc.extractLsb' 28 4 ++ addr26 ++ (0 : BitVec 2)

end Sys2Proof.Machine
end

