-- ==== Sys2Proof/Machine/Issue.lean ====
section
/-! DEFINITION. What the instructions' net effects share: the first cycle, and the idle ALU of a last cycle. -/

namespace Sys2Proof.Machine

/-- The first cycle of every instruction (41_alu_rtype.md section 2, cycle 1): `IR`, the FSM's copies and the operands
are latched, and `PC <- A + 4` (10_state.md R27). -/
def State.issue (s : State) (w : Word) : State := { s.latch w with pc := s.pc + 4 }

/-- The idle ALU setting's result, ADD of `PC` and 4 (40_datapath.md R103; decision D5; log entry 7). -/
def State.idleResult (s : State) : Word := aluAdd s.pc 4

/-- The flag an idle cycle leaves. -/
def State.idleFlag (s : State) : State := { s with zero := zeroOf s.idleResult }

/-- The latches a last cycle leaves when it reads the stream at `PC` (step 9, R124): the idle result, and the word
probed there. -/
def State.idleLatch (s : State) : State := { s with aluOutput := s.idleResult, data := instrProbe s.pc s }

end Sys2Proof.Machine
end

