-- ==== Sys2Proof/Machine/Control.lean ====
section
/-! DEFINITION. BEQ, BNE and J (43_control_transfer.md R180 to R189). -/

namespace Sys2Proof.Machine

/-- The three cycles of a branch (R181, R182): the target is the one `Decode` latched (R180), the comparison is the SUB
of the two operands (decision D6), and `negate` inverts the test. -/
def branchEffect (w : Word) (imm8 : BitVec 8) (a b : Word) (negate : Bool) (s : State) : State :=
  let s1 := s.issue w
  let diff := aluSub a b
  { s1 with
    fsmState := .fetch
    zero := zeroOf diff
    pc := if branchTest (zeroOf diff) negate then branchTarget s1.pc imm8 else s1.pc
    aluOutput := diff
    data := instrProbe s1.pc s1 }

/-- BEQ (R181). -/
def execBeq (rs rt : RegIx) (ign imm8 : BitVec 8) (s : State) : Host.Outcome State Fault Refusal :=
  .next (branchEffect (encode s.cfg.enc (.beq rs rt ign imm8)) imm8 (s.readReg rs) (s.readReg rt) false s)

/-- BNE (R182). -/
def execBne (rs rt : RegIx) (ign imm8 : BitVec 8) (s : State) : Host.Outcome State Fault Refusal :=
  .next (branchEffect (encode s.cfg.enc (.bne rs rt ign imm8)) imm8 (s.readReg rs) (s.readReg rt) true s)

/-- J (R183, R184): the idle latches come from the PC before the transfer. -/
def execJ (addr26 : BitVec 26) (s : State) : Host.Outcome State Fault Refusal :=
  let s1 := s.issue (encode s.cfg.enc (.j addr26))
  .next { s1.idleFlag.idleLatch with fsmState := .fetch, pc := jumpTarget s1.pc addr26 }

end Sys2Proof.Machine
end

