-- ==== Sys2Proof/Machine/LoadStore.lean ====
section
/-! DEFINITION. LW and SW (42_load_store.md R160 to R163), over their common address computation. -/

namespace Sys2Proof.Machine

/-- Cycles 1 to 3 of LW and SW: the effective address stands in `alu_output` (R160). -/
def addressEffect (w : Word) (ea : Word) (s : State) : State :=
  let s1 := s.issue w
  { s1 with zero := zeroOf ea, aluOutput := ea, data := instrProbe s1.pc s1 }

/-- Cycles 4 and 5 of LW (R161), from the state `s3` cycle 3 leaves: the read, then the write-back of the word read. -/
def loadEffect (rt : RegIx) (ea : Word) (s3 : State) : Except Fault State :=
  (memRead ea { s3 with fsmState := .iTypeReadWriteback }).bind fun v =>
  let s5 := { s3.idleFlag with fsmState := .fetch, aluOutput := s3.idleResult, data := v }
  (writeReg .iTypeReadWriteback rt v s5).bind fun t => .ok t.idleLatch

/-- Cycle 4 of SW (R162), from the state `s3` cycle 3 leaves: the write, then the read back of the same bytes. -/
def storeEffect (v : Word) (ea : Word) (s3 : State) : Except Fault State :=
  (memWrite ea v { s3 with fsmState := .fetch }).bind fun t =>
  (memRead ea t).bind fun back =>
  .ok { t.idleFlag with aluOutput := t.idleResult, data := back }

/-- LW (R161). -/
def execLw (rs rt : RegIx) (ign imm8 : BitVec 8) (s : State) : Host.Outcome State Fault Refusal :=
  let ea := effectiveAddress (s.readReg rs) imm8
  outcome (loadEffect rt ea (addressEffect (encode s.cfg.enc (.lw rs rt ign imm8)) ea s))

/-- SW (R162). -/
def execSw (rs rt : RegIx) (ign imm8 : BitVec 8) (s : State) : Host.Outcome State Fault Refusal :=
  let ea := effectiveAddress (s.readReg rs) imm8
  outcome (storeEffect (s.readReg rt) ea (addressEffect (encode s.cfg.enc (.sw rs rt ign imm8)) ea s))

end Sys2Proof.Machine
end

