-- ==== Sys2Proof/Machine/Print.lean ====
section
/-! DEFINITION. PRINT (44_print.md R200). -/

namespace Sys2Proof.Machine

/-- PRINT (R200): one cycle, so the latches are the `Fetch` cycle's own. -/
def execPrint (rs rt rd : RegIx) (ign : BitVec 5) (s : State) : Host.Outcome State Fault Refusal :=
  let w := encode s.cfg.enc (.print rs rt rd ign)
  let s1 := s.issue w
  .next
    { s1.appendOut (s.readReg rs) with
      fsmState := .fetch
      zero := zeroOf s1.pc
      aluOutput := s1.pc
      data := w }

end Sys2Proof.Machine
end

