-- ==== Sys2Proof/Machine/RType.lean ====
section
/-! DEFINITION. The six R-type operations (41_alu_rtype.md R150 to R155), over their common effect. -/

namespace Sys2Proof.Machine

/-- The common net effect of 41_alu_rtype.md section 2, four cycles: `result` is `OP(a, b)`. The write-back to `rd` is
the last cycle's step 8; when it raises, `zero` is already the idle ALU's and `alu_output` still the result (R221). -/
def rTypeEffect (w : Word) (rd : RegIx) (result : Word) (s : State) : Except Fault State :=
  let s1 := s.issue w
  let s4 := { s1.idleFlag with fsmState := .fetch, aluOutput := result, data := instrProbe s1.pc s1 }
  (writeReg .rTypeWriteback rd result s4).bind fun t => .ok t.idleLatch

/-- ADD (R150). -/
def execAdd (rs rt rd : RegIx) (ign : BitVec 5) (s : State) : Host.Outcome State Fault Refusal :=
  outcome (rTypeEffect (encode s.cfg.enc (.add rs rt rd ign)) rd (aluAdd (s.readReg rs) (s.readReg rt)) s)

/-- SUB (R151). -/
def execSub (rs rt rd : RegIx) (ign : BitVec 5) (s : State) : Host.Outcome State Fault Refusal :=
  outcome (rTypeEffect (encode s.cfg.enc (.sub rs rt rd ign)) rd (aluSub (s.readReg rs) (s.readReg rt)) s)

/-- AND (R152). -/
def execAnd (rs rt rd : RegIx) (ign : BitVec 5) (s : State) : Host.Outcome State Fault Refusal :=
  outcome (rTypeEffect (encode s.cfg.enc (.and rs rt rd ign)) rd (aluAnd (s.readReg rs) (s.readReg rt)) s)

/-- OR (R153). -/
def execOr (rs rt rd : RegIx) (ign : BitVec 5) (s : State) : Host.Outcome State Fault Refusal :=
  outcome (rTypeEffect (encode s.cfg.enc (.or rs rt rd ign)) rd (aluOr (s.readReg rs) (s.readReg rt)) s)

/-- NOR (R154). -/
def execNor (rs rt rd : RegIx) (ign : BitVec 5) (s : State) : Host.Outcome State Fault Refusal :=
  outcome (rTypeEffect (encode s.cfg.enc (.nor rs rt rd ign)) rd (aluNor (s.readReg rs) (s.readReg rt)) s)

/-- SLT (R155). -/
def execSlt (rs rt rd : RegIx) (ign : BitVec 5) (s : State) : Host.Outcome State Fault Refusal :=
  outcome (rTypeEffect (encode s.cfg.enc (.slt rs rt rd ign)) rd (aluSlt (s.readReg rs) (s.readReg rt)) s)

end Sys2Proof.Machine
end

