-- ==== Sys2Proof/Machine/Dispatch.lean ====
section
/-! DEFINITION. One arm per instruction. -/

namespace Sys2Proof.Machine

def exec (i : Instr) (s : State) : Host.Outcome State Fault Refusal :=
  match i with
  | .add rs rt rd ign => Sys2Proof.Machine.execAdd rs rt rd ign s
  | .sub rs rt rd ign => Sys2Proof.Machine.execSub rs rt rd ign s
  | .and rs rt rd ign => Sys2Proof.Machine.execAnd rs rt rd ign s
  | .or rs rt rd ign => Sys2Proof.Machine.execOr rs rt rd ign s
  | .nor rs rt rd ign => Sys2Proof.Machine.execNor rs rt rd ign s
  | .slt rs rt rd ign => Sys2Proof.Machine.execSlt rs rt rd ign s
  | .print rs rt rd ign => Sys2Proof.Machine.execPrint rs rt rd ign s
  | .lw rs rt ign imm8 => Sys2Proof.Machine.execLw rs rt ign imm8 s
  | .sw rs rt ign imm8 => Sys2Proof.Machine.execSw rs rt ign imm8 s
  | .beq rs rt ign imm8 => Sys2Proof.Machine.execBeq rs rt ign imm8 s
  | .bne rs rt ign imm8 => Sys2Proof.Machine.execBne rs rt ign imm8 s
  | .j addr26 => Sys2Proof.Machine.execJ addr26 s

end Sys2Proof.Machine
end

