-- ==== Sys2Proof/Machine/Datapath.lean ====
section
/-! DEFINITION. The control FSM and the ten steps of one `clock()` cycle (40_datapath.md R100 to R129). -/

namespace Sys2Proof.Machine

/-! ### The decision bundle (R100) -/

/-- Which memory this cycle accesses. -/
inductive Iord where
  | instr
  | data
  deriving DecidableEq, Repr

/-- The ALU's left operand. -/
inductive AluSrcA where
  | pc
  | regA
  deriving DecidableEq, Repr

/-- The ALU's right operand. -/
inductive AluSrcB where
  | regB
  | four
  | imm
  | immShift2
  deriving DecidableEq, Repr

/-- Where a new PC comes from. -/
inductive PcSource where
  | aluResult
  | aluOut
  | jumpTarget
  deriving DecidableEq, Repr

/-- The ALU operation: a function code, or the latched `fsm_funct`. -/
inductive AluFn where
  | code (f : BitVec 6)
  | funct
  deriving DecidableEq, Repr

/-- The source's `FSMDecision`: it lives within one cycle and is no state (10_state.md R36). -/
structure Decision where
  iord : Iord
  memWrite : Bool
  irWrite : Bool
  pcWrite : Bool
  branch : Bool
  pcSource : PcSource
  aluFn : AluFn
  aluSrcA : AluSrcA
  aluSrcB : AluSrcB
  regWrite : Bool
  memToReg : Bool
  regDst : Bool
  negateZero : Bool
  deriving DecidableEq, Repr

/-- What `clock()` gives back besides the state, as the abstract ports of 60_exceptions.md R236: the Boolean it returns,
and the word PRINT appended in this cycle, if any (`print_data` when `print_valid`). -/
structure ClkPorts where
  running : Bool
  printed : Option Word
  deriving DecidableEq, Repr

/-! ### Selector numbers (R100, decision D3; R213)

The cycle uses the enumerations. The numbers are for a reader who holds a decision as numbers; a number outside its
enumeration raises `UnknownSelector` (decision D30). -/

def Iord.number : Iord → Nat
  | .instr => 0
  | .data => 1

def AluSrcA.number : AluSrcA → Nat
  | .pc => 0
  | .regA => 1

def AluSrcB.number : AluSrcB → Nat
  | .regB => 0
  | .four => 1
  | .imm => 2
  | .immShift2 => 3

def PcSource.number : PcSource → Nat
  | .aluResult => 0
  | .aluOut => 1
  | .jumpTarget => 2

def aluSrcAOfNumber (n : Nat) (s : State) : Except Fault AluSrcA :=
  match n with
  | 0 => .ok .pc
  | 1 => .ok .regA
  | _ => raise (.unknownSelector .aluSrcA) s

def aluSrcBOfNumber (n : Nat) (s : State) : Except Fault AluSrcB :=
  match n with
  | 0 => .ok .regB
  | 1 => .ok .four
  | 2 => .ok .imm
  | 3 => .ok .immShift2
  | _ => raise (.unknownSelector .aluSrcB) s

def pcSourceOfNumber (n : Nat) (s : State) : Except Fault PcSource :=
  match n with
  | 0 => .ok .aluResult
  | 1 => .ok .aluOut
  | 2 => .ok .jumpTarget
  | _ => raise (.unknownSelector .pcSource) s

/-! ### The decision of each state (R101 to R111) -/

/-- The don't-care convention of R103: every Boolean false, the idle ALU setting `ADD` of `PC` and 4. -/
def idleDecision (e : Enc) : Decision where
  iord := .instr
  memWrite := false
  irWrite := false
  pcWrite := false
  branch := false
  pcSource := .aluResult
  aluFn := .code e.fnAdd
  aluSrcA := .pc
  aluSrcB := .four
  regWrite := false
  memToReg := false
  regDst := false
  negateZero := false

/-- The decision of a state (decisions D4 to D8 where the source gives no value); `opcode` is `fsm_opcode`, read in
`Branch` alone (R110). -/
def decision (e : Enc) (st : FsmState) (opcode : BitVec 6) : Decision :=
  match st with
  | .fetch => { idleDecision e with irWrite := true, pcWrite := true }
  | .decode => { idleDecision e with aluSrcB := .immShift2 }
  | .rTypeExecute => { idleDecision e with aluSrcA := .regA, aluSrcB := .regB, aluFn := .funct }
  | .rTypeWriteback => { idleDecision e with regWrite := true, regDst := true }
  | .jType => { idleDecision e with pcWrite := true, pcSource := .jumpTarget }
  | .iTypeAddressCompute => { idleDecision e with aluSrcA := .regA, aluSrcB := .imm }
  | .iTypeMemoryRead => { idleDecision e with iord := .data }
  | .iTypeMemoryWrite => { idleDecision e with iord := .data, memWrite := true }
  | .iTypeReadWriteback => { idleDecision e with regWrite := true, memToReg := true }
  | .branch =>
    { idleDecision e with
      branch := true
      pcSource := .aluOut
      aluSrcA := .regA
      aluSrcB := .regB
      aluFn := .code e.fnSub
      negateZero := decide (opcode = e.opBne) }

/-! ### The next-state function (R112) -/

/-- The next state, or none where the table raises `UnknownOpcode`. -/
def nextState (e : Enc) (st : FsmState) (opcode : BitVec 6) : Option FsmState :=
  match st with
  | .fetch => some .decode
  | .decode =>
    if opcode = 0 then some .rTypeExecute
    else if opcode = e.opJ then some .jType
    else if opcode = e.opBeq ∨ opcode = e.opBne then some .branch
    else if opcode = e.opLw ∨ opcode = e.opSw then some .iTypeAddressCompute
    else none
  | .iTypeAddressCompute =>
    if opcode = e.opLw then some .iTypeMemoryRead
    else if opcode = e.opSw then some .iTypeMemoryWrite
    else none
  | .iTypeMemoryRead => some .iTypeReadWriteback
  | .rTypeExecute => some .rTypeWriteback
  | .iTypeMemoryWrite => some .fetch
  | .iTypeReadWriteback => some .fetch
  | .rTypeWriteback => some .fetch
  | .branch => some .fetch
  | .jType => some .fetch

/-! ### The steps of one cycle -/

/-- Step 1 (R113): the state transition; a raise leaves `fsm_state` as it was (60_exceptions.md R221). -/
def advance (s : State) : Except Fault State :=
  match nextState s.cfg.enc s.fsmState s.fsmOpcode with
  | some st => .ok { s with fsmState := st }
  | none => raise (.unknownOpcode s.fsmOpcode) s

/-- Step 2 (R114): the address of this cycle's access. -/
def accessAddr (d : Decision) (s : State) : Word :=
  match d.iord with
  | .instr => s.pc
  | .data => s.aluOutput

/-- Step 3 (R115): a write with the instruction selector is ignored (20_memory.md R62). -/
def writeStep (d : Decision) (addr : Word) (s : State) : Except Fault State :=
  match d.memWrite, d.iord with
  | true, .data => memWrite addr s.operandB s
  | true, .instr => .ok s
  | false, _ => .ok s

/-- Step 4 (R116): the read happens in every cycle. -/
def readStep (d : Decision) (addr : Word) (s : State) : Except Fault Word :=
  match d.iord with
  | .instr => instrRead addr d.irWrite s
  | .data => memRead addr s

/-- `is_print_instruction()` (R118; 30_encoding.md R80). -/
def isPrint (w : Word) : Bool := decide (opcodeField w = 0) && decide (functField w = 0)

/-- Step 5 (R117, R118): the latch, and for PRINT the output and the return to `Fetch`. -/
def latchStep (d : Decision) (word : Word) (s : State) : State :=
  if d.irWrite then
    let s := s.latch word
    if isPrint word then { s.appendOut s.operandA with fsmState := .fetch } else s
  else s

/-- The word PRINT appends in this cycle, if any (`s` is the state after step 5). -/
def printedWord (d : Decision) (word : Word) (s : State) : Option Word :=
  if d.irWrite && isPrint word then some s.operandA else none

/-- Step 6 (R119): the ALU's left operand. -/
def aluLeft (d : Decision) (s : State) : Word :=
  match d.aluSrcA with
  | .pc => s.pc
  | .regA => s.operandA

/-- Step 6 (R119): the ALU's right operand. -/
def aluRight (d : Decision) (s : State) : Word :=
  match d.aluSrcB with
  | .regB => s.operandB
  | .four => 4
  | .imm => immOf (imm8Field s.ir)
  | .immShift2 => immShift2Of (imm8Field s.ir)

/-- Step 6 (R120): the function code. -/
def aluCode (d : Decision) (s : State) : BitVec 6 :=
  match d.aluFn with
  | .code f => f
  | .funct => s.fsmFunct

/-- Step 7 (R121): the PC-write enable, with the flag step 6 just wrote. -/
def pcEnable (d : Decision) (s : State) : Bool := (d.branch && branchTest s.zero d.negateZero) || d.pcWrite

/-- Step 7 (R122): the new PC. -/
def pcValue (d : Decision) (result : Word) (s : State) : Word :=
  match d.pcSource with
  | .aluResult => result
  | .aluOut => s.aluOutput
  | .jumpTarget => jumpTarget s.pc (addr26Field s.ir)

/-- Step 7. -/
def pcStep (d : Decision) (result : Word) (s : State) : State :=
  if pcEnable d s then { s with pc := pcValue d result s } else s

/-- Step 8 (R123): write-back of the latched `data` or `alu_output`; `during` is the state the cycle runs. -/
def writebackStep (d : Decision) (during : FsmState) (s : State) : Except Fault State :=
  if d.regWrite then
    writeReg during (if d.regDst then rdField s.ir else rtField s.ir) (if d.memToReg then s.data else s.aluOutput) s
  else .ok s

/-- Step 9 (R124; decision D9 for `data`). -/
def latchResults (result word : Word) (s : State) : State := { s with aluOutput := result, data := word }

/-- One `clock()` cycle: steps 1 to 10 in order (R126), the first raise ending it. It is for states with no fault set
(R220); `hostClock` is the call the host makes. -/
def clock (s : State) : Except Fault (State × ClkPorts) :=
  let d := decision s.cfg.enc s.fsmState s.fsmOpcode
  (advance s).bind fun s1 =>
  let addr := accessAddr d s1
  (writeStep d addr s1).bind fun s3 =>
  (readStep d addr s3).bind fun word =>
  let s5 := latchStep d word s3
  (runAlu (aluLeft d s5) (aluRight d s5) (aluCode d s5) s5).bind fun r =>
  (writebackStep d s.fsmState (pcStep d r.1 r.2)).bind fun s8 =>
  let s9 := latchResults r.1 word s8
  .ok (s9, { running := s9.running, printed := printedWord d word s5 })

/-- The host's `clk` command (60_exceptions.md R233, R236), admitted only while no fault is set (R220). -/
def hostClock (s : State) : Host.Outcome (State × ClkPorts) Fault Refusal :=
  match s.fault with
  | some r => .refused (.faulted r)
  | none =>
    match clock s with
    | .ok r => .next r
    | .error f => .fault f

/-! ### Many cycles -/

/-- `clock()` called `n` times, whatever it returns, up to the first raise. -/
def clocks : Nat → State → Except Fault State
  | 0, s => .ok s
  | n + 1, s => (clock s).bind fun r => clocks n r.1

/-- Cycles until the FSM is back in `Fetch`, at most `n`: the end of the instruction in progress, or of the next one. -/
def clocksToFetch : Nat → State → Except Fault State
  | 0, s => .ok s
  | n + 1, s =>
    (clock s).bind fun r =>
    if r.1.fsmState = .fetch then .ok r.1 else clocksToFetch n r.1

/-- How a run of at most `n` cycles ends (R127). -/
inductive RunEnd where
  /-- `clock()` returned `false` at the given cycle: the final state -/
  | finished (cycles : Nat) (s : State)
  /-- the first raise, at the given cycle -/
  | faulted (cycle : Nat) (f : Fault)
  /-- stopped early by the host, or a hang: no final state -/
  | stoppedEarly (s : State)
  deriving DecidableEq, Repr

/-- A run: `clock()` repeated while it returns `true`, at most `n` times; `k` cycles have run (R127). -/
def runFrom : Nat → Nat → State → RunEnd
  | 0, _, s => .stoppedEarly s
  | n + 1, k, s =>
    match clock s with
    | .error f => .faulted (k + 1) f
    | .ok (t, p) => if p.running then runFrom n (k + 1) t else .finished (k + 1) t

end Sys2Proof.Machine
end

