-- ==== Sys2Proof/Machine/Fetch.lean ====
section
/-! DEFINITION. Finding the instruction a step runs. -/

namespace Sys2Proof.Machine

/-- The instruction at `PC`, when the FSM is in `Fetch` and the word there is in the stream and legal (20_memory.md R58,
30_encoding.md R79). -/
def fetchInstr (s : State) : Option Instr :=
  if s.fsmState = .fetch then
    if fetchInRange s.pc s then
      match decodeWord s.cfg.enc (codeWord s.cfg.code (u32 s.pc)) with
      | .ok i => some i
      | .error _ => none
    else none
  else none

/-- The cycles until the FSM is back in `Fetch`: no instruction takes more than five (40_datapath.md R129). -/
def finishInstr (s : State) : Except Fault State := clocksToFetch 5 s

/-- `code` with the bytes of `w` at offset `n`; bytes the stream lacks before `n` are 0. -/
def placeWord (code : List Byte) (n : Nat) (w : Word) : List Byte :=
  let padded := code ++ List.replicate (n - code.length) 0
  padded.take n ++ bytesOfWord w ++ padded.drop (n + 4)

end Sys2Proof.Machine
end

