-- ==== Sys2Proof/Machine/Step.lean ====
section
/-! DEFINITION. One step: one whole instruction, from its `Fetch` cycle until the FSM is back in `Fetch` (log entry 2). -/

namespace Sys2Proof.Machine

/-- A step from a state in `Fetch` whose word is an instruction runs that instruction. A step from any other state, one
within an instruction, one at an illegal word or one past the end of the stream, clocks the datapath until the FSM is
back in `Fetch` or a fault is raised. A faulted state admits no step (60_exceptions.md R220). -/
def step (s : State) : Host.Outcome State Fault Refusal :=
  match s.fault with
  | some r => .refused (.faulted r)
  | none =>
    match fetchInstr s with
    | some i => exec i s
    | none => outcome (finishInstr s)

/-- `s` with a table row's word as the next instruction: in the stream at `PC`, the FSM in `Fetch`, no fault set. It
stands for the construction that supplies `CODE` (log entry 4). -/
def State.withFetchWord (s : State) (nbits w : Nat) : State :=
  { s with
    cfg := { s.cfg with code := placeWord s.cfg.code (u32 s.pc) (tableWord nbits w) }
    fsmState := .fetch
    fault := none }

end Sys2Proof.Machine
end

