-- ==== Sys2Proof/Safety.lean ====
section
/-! DEFINITION. What the claims call a good state, a completed instruction and a run. -/

namespace Sys2Proof.Machine

/-- What the latched opcode and function code are in each control state. It rules out the two cases the spec calls
unreachable: `ITypeAddressCompute` with an opcode other than LW and SW (40_datapath.md R112, decision D29), and function
code 0 in `RTypeExecute` (60_exceptions.md R212). In `Branch` the latched target is a multiple of 4
(43_control_transfer.md R189). -/
def State.latchedOk (s : State) : Prop :=
  match s.fsmState with
  | .fetch => True
  | .decode => ¬(s.fsmOpcode = 0 ∧ s.fsmFunct = 0)
  | .rTypeExecute => s.fsmOpcode = 0 ∧ s.fsmFunct ≠ 0
  | .rTypeWriteback => s.fsmOpcode = 0 ∧ s.fsmFunct ∈ s.cfg.enc.functs
  | .jType => s.fsmOpcode = s.cfg.enc.opJ
  | .branch => (s.fsmOpcode = s.cfg.enc.opBeq ∨ s.fsmOpcode = s.cfg.enc.opBne) ∧ u32 s.aluOutput % 4 = 0
  | .iTypeAddressCompute => s.fsmOpcode = s.cfg.enc.opLw ∨ s.fsmOpcode = s.cfg.enc.opSw
  | .iTypeMemoryRead => s.fsmOpcode = s.cfg.enc.opLw
  | .iTypeMemoryWrite => s.fsmOpcode = s.cfg.enc.opSw
  | .iTypeReadWriteback => s.fsmOpcode = s.cfg.enc.opLw

/-- The invariant of the CORE while it runs. -/
structure State.Inv (s : State) : Prop where
  /-- the parameters meet their constraints (00_scope.md R8, R9, R10) -/
  cfgValid : s.cfg.Valid
  /-- no fault is recorded (10_state.md R40) -/
  noFault : s.fault = none
  /-- the slot of register 0 holds 0 (R22) -/
  regZero : s.regs[0] = 0
  /-- `PC` is a multiple of 4 (R27) -/
  pcAligned : u32 s.pc % 4 = 0
  /-- the memory has its canonical form (the model's own; log entry 5) -/
  memWf : Memory.wf s.mem
  /-- the memory lists only addresses of the data memory (R37) -/
  memBelow : Memory.below s.cfg.memSize s.mem
  /-- the snapshot is the construction image (R37) -/
  snapshotImage : s.snapshot = imageFrom 0 s.cfg.initMem
  /-- the FSM's copies equal the fields of `IR` (R34) -/
  opcodeCopy : s.fsmOpcode = opcodeField s.ir
  functCopy : s.fsmFunct = functField s.ir
  latchedOk : s.latchedOk

/-- When an instruction completes: its write-back is not to register 0 (60_exceptions.md R214) and its data access is in
range (R215). Every other instruction always completes (R218). -/
def completes (i : Instr) (s : State) : Bool :=
  match i with
  | .add _ _ rd _ => decide (rd ≠ 0)
  | .sub _ _ rd _ => decide (rd ≠ 0)
  | .and _ _ rd _ => decide (rd ≠ 0)
  | .or _ _ rd _ => decide (rd ≠ 0)
  | .nor _ _ rd _ => decide (rd ≠ 0)
  | .slt _ _ rd _ => decide (rd ≠ 0)
  | .print _ _ _ _ => true
  | .lw rs rt _ imm8 => dataInRange s.cfg.memSize (effectiveAddress (s.readReg rs) imm8) && decide (rt ≠ 0)
  | .sw rs _ _ imm8 => dataInRange s.cfg.memSize (effectiveAddress (s.readReg rs) imm8)
  | .beq _ _ _ _ => true
  | .bne _ _ _ _ => true
  | .j _ => true

/-- The byte address an instruction stores four bytes at, if it stores: `execSw`'s own expression. -/
def storeAddr (i : Instr) (s : State) : Option Nat :=
  match i with
  | .add _ _ _ _ => none
  | .sub _ _ _ _ => none
  | .and _ _ _ _ => none
  | .or _ _ _ _ => none
  | .nor _ _ _ _ => none
  | .slt _ _ _ _ => none
  | .print _ _ _ _ => none
  | .lw _ _ _ _ => none
  | .sw rs _ _ imm8 => some (byteAddr (effectiveAddress (s.readReg rs) imm8))
  | .beq _ _ _ _ => none
  | .bne _ _ _ _ => none
  | .j _ => none

/-- The word an instruction appends to `out`, if it does (44_print.md R200). -/
def printedBy (i : Instr) (s : State) : Option Word :=
  match i with
  | .add _ _ _ _ => none
  | .sub _ _ _ _ => none
  | .and _ _ _ _ => none
  | .or _ _ _ _ => none
  | .nor _ _ _ _ => none
  | .slt _ _ _ _ => none
  | .print rs _ _ _ => some (s.readReg rs)
  | .lw _ _ _ _ => none
  | .sw _ _ _ _ => none
  | .beq _ _ _ _ => none
  | .bne _ _ _ _ => none
  | .j _ => none

/-- The states the host can bring a CORE constructed from `c` to, by `clock()` and `reset()` (60_exceptions.md R233). -/
inductive Reachable (c : Config) : State → Prop where
  | fresh : Reachable c (State.fresh c)
  | clock {s t : State} {p : ClkPorts} : Reachable c s → Machine.clock s = .ok (t, p) → Reachable c t
  | reset {s : State} : Reachable c s → Reachable c s.resetCore

/-- What a program and its user can tell apart: registers, `PC`, memory, output and control state, but not the latches
(10_state.md R43). -/
structure Visible where
  regs : Vector Word 32
  pc : Word
  mem : Memory
  snapshot : Memory
  out : List Word
  fsmState : FsmState
  cfg : Config
  deriving DecidableEq, Repr

def State.visible (s : State) : Visible where
  regs := s.regs
  pc := s.pc
  mem := s.mem
  snapshot := s.snapshot
  out := s.out
  fsmState := s.fsmState
  cfg := s.cfg

/-- How an outcome looks: the visible part of the next state, or the fault's record and the visible part of the state it
stopped in. -/
inductive Seen where
  | next (v : Visible)
  | fault (r : FaultRecord) (v : Option Visible)
  | refused (r : Refusal)
  deriving DecidableEq, Repr

def seen : Host.Outcome State Fault Refusal → Seen
  | .next t => .next t.visible
  | .fault f => .fault f.record (f.stopped.map State.visible)
  | .refused r => .refused r

/-- The same state with `p` printed before everything it printed. -/
def State.withOutBefore (p : List Word) (s : State) : State := { s with out := p ++ s.out }

end Sys2Proof.Machine
end

