-- ==== Sys2Proof/Certificates/Slice0/Obligations.lean ====
section
/-! DEFINITION. The statements for the provers. Each docstring names the rules of spec/ it formalises. Where a statement
rests on a decision the spec marks as its own (Dn), its docstring says so. -/

open Sys2Proof Sys2Proof.Machine

namespace Sys2Proof.Claims

/-! ### Words the statements are written in -/

/-- An address is legal (20_memory.md R54): `0 <= addr` and `addr + 4 <= MEM_SIZE`, without wrap. -/
def legal (s : State) (addr : Word) : Prop := 0 ≤ addr.toInt ∧ addr.toInt + 4 ≤ s.cfg.memSize

/-- The effective address of LW and SW (42_load_store.md R160; the unscaled offset is decision D8). -/
def ea (s : State) (rs : RegIx) (imm8 : BitVec 8) : Word := wrap32 (s32 (s.readReg rs) + imm8.toNat)

/-- Four bytes of the data memory from address `a` on, the first the most significant. -/
def fourBytes (s : State) (a : Nat) : Word := s.mem.read a ++ s.mem.read (a + 1) ++ s.mem.read (a + 2) ++ s.mem.read (a + 3)

/-- `s` after an instruction with word `w` has completed, as far as every instruction does the same: the instruction
latches (10_state.md R30, R31, R34), the FSM back in `Fetch`; and the PC, `alu_output`, `data` and `zero` given. Every other
field is `s`'s. -/
def completed (s : State) (w pc aluOutput data : Word) (zero : Bool) : State :=
  { s with
    pc := pc
    zero := zero
    ir := w
    operandA := s.readReg (w.extractLsb' 21 5)
    operandB := s.readReg (w.extractLsb' 16 5)
    aluOutput := aluOutput
    data := data
    fsmOpcode := w.extractLsb' 26 6
    fsmFunct := w.extractLsb' 0 6
    fsmState := .fetch }

/-- `t` is `completed` at `pc` with whatever values `alu_output`, `data` and `zero` have in `t`: after a last cycle whose ALU is idle
they are the spec's don't-care choices, and "a claim must not rest on them" (10_state.md R43; decisions D5, D9). -/
def completedBut (s : State) (w pc : Word) (t : State) : State := completed s w pc t.aluOutput t.data t.zero

/-- What one R-type operation does (41_alu_rtype.md section 2): with `rd` not 0 it completes with `op a b` in `rd` and
nothing else changed but the latches; with `rd` 0 it stops by `Reg0Write`, no register, byte or output changed. -/
def RTypeDoes (mk : RegIx → RegIx → RegIx → BitVec 5 → Instr) (op : Word → Word → Word) : Prop :=
  ∀ (rs rt rd : RegIx) (ign : BitVec 5) (s : State),
    (rd ≠ 0 →
      ∃ t, exec (mk rs rt rd ign) s = .next t ∧
        t = { completedBut s (encode s.cfg.enc (mk rs rt rd ign)) (s.pc + 4) t with
          regs := s.regs.set rd.toNat (op (s.readReg rs) (s.readReg rt)) rd.isLt }) ∧
    (rd = 0 →
      ∃ t, exec (mk rs rt rd ign) s = .fault (.reg0Write .rTypeWriteback t) ∧
        t.regs = s.regs ∧ t.mem = s.mem ∧ t.out = s.out ∧ t.fault = some (.reg0Write .rTypeWriteback))

/-- What a conditional branch does (43_control_transfer.md R181, R182): it completes, at the target when `taken`, else at
`A + 4`; `zero` is the comparison's result. `alu_output` and `data` are left open (R43). -/
def BranchDoes (mk : RegIx → RegIx → BitVec 8 → BitVec 8 → Instr) (taken : Word → Word → Bool) : Prop :=
  ∀ (rs rt : RegIx) (ign imm8 : BitVec 8) (s : State),
    ∃ t, exec (mk rs rt ign imm8) s = .next t ∧
      t = completed s (encode s.cfg.enc (mk rs rt ign imm8))
        (if taken (s.readReg rs) (s.readReg rt) then s.pc + 4 + BitVec.ofNat 32 (4 * imm8.toNat) else s.pc + 4)
        t.aluOutput t.data (s.readReg rs == s.readReg rt)

end Sys2Proof.Claims

open Sys2Proof.Claims

/-! ### Encoding -/

/-- Decoding the bytes of an encoded instruction gives it back, with the bytes after it, under every valid `ENC`: every
operand at every value, the ignored bits too (30_encoding.md R70 to R74, R77 to R79). -/
def Obligations.DecodeOfEncodeReturnsInstr : Prop :=
  ∀ (e : Enc) (i : Instr) (rest : List Byte), e.Valid → decode e (bytesOfWord (encode e i) ++ rest) = .ok (i, rest)

/-- An instruction decoded from bytes encodes to exactly the four bytes it was decoded from: the decoder drops no bit and no
two words decode to one instruction (R70 to R74, R79). -/
def Obligations.EncodeOfDecodeReturnsBytes : Prop :=
  ∀ (e : Enc) (bs rest : List Byte) (i : Instr), decode e bs = .ok (i, rest) → bs = bytesOfWord (encode e i) ++ rest

/-- A word is refused exactly when its opcode is none of the six, or it is 0 and the function code is none of the seven, and
by that name (R79, R81, R82). -/
def Obligations.IllegalWordsAreRefusedByName : Prop :=
  ∀ (e : Enc) (w : Word),
    ((∃ op, decodeWord e w = .error (.illegalOpcode op)) ↔ w.extractLsb' 26 6 ∉ 0 :: e.opcodes) ∧
    ((∃ fn, decodeWord e w = .error (.illegalFunct fn)) ↔
      w.extractLsb' 26 6 = 0 ∧ w.extractLsb' 0 6 ∉ 0 :: e.functs) ∧
    (∀ op, decodeWord e w = .error (.illegalOpcode op) → op = w.extractLsb' 26 6) ∧
    (∀ fn, decodeWord e w = .error (.illegalFunct fn) → fn = w.extractLsb' 0 6) ∧
    decodeWord e w ≠ .error .truncated

/-- A few words of the spec's V4 table (95_test_vectors.md) decode to the instructions named there, under the default `ENC`. Its
numbers are presumed (decisions D1, D2; log entry 1); that `0x8C01FF00` is LW with its ignored bits set is decision D18 (log entry
17). -/
def Obligations.SpecWordsDecode : Prop :=
  decodeTableWord 32 0x00221820 = some (.add 1 2 3 0) ∧
  decodeTableWord 32 0x0044402A = some (.slt 2 4 8 0) ∧
  decodeTableWord 32 0x00200000 = some (.print 1 0 0 0) ∧
  decodeTableWord 32 0x8C01FF00 = some (.lw 0 1 0xFF 0) ∧
  decodeTableWord 32 0xAC030064 = some (.sw 0 3 0 100) ∧
  decodeTableWord 32 0x15000001 = some (.bne 8 0 0 1) ∧
  decodeTableWord 32 0x08000002 = some (.j 2) ∧
  decodeTableWord 32 0x00221801 = none ∧
  decodeTableWord 32 0xFC000000 = none

/-- The ignored bits never change what is visible of the outcome: the registers, the PC, the memory, the output, the control
state, or the fault and where it stopped (R83; that they are ignored is decision D18). -/
def Obligations.IgnoredBitsChangeNothingVisible : Prop :=
  ∀ (i : Instr) (s : State), seen (exec i.clearIgnored s) = seen (exec i s)

/-! ### The ALU -/

/-- ADD and SUB are the integer sum and difference wrapped to 32 bits, on every operand (41_alu_rtype.md R141, R142, with
their examples): they never trap. -/
def Obligations.AluAddAndSubWrap : Prop :=
  ∀ e : Enc, e.Valid →
    (∀ a b : Word,
      alu e a b e.fnAdd = some (wrap32 (s32 a + s32 b)) ∧
      (∀ r, alu e a b e.fnAdd = some r → u32 r = (u32 a + u32 b) % 2 ^ 32) ∧
      alu e a b e.fnSub = some (wrap32 (s32 a - s32 b))) ∧
    alu e 0x7FFFFFFF 1 e.fnAdd = some 0x80000000 ∧
    alu e 0x80000000 1 e.fnSub = some 0x7FFFFFFF

/-- AND, OR and NOR bit by bit (R143, R144, R145). -/
def Obligations.AluLogicIsBitwise : Prop :=
  ∀ (e : Enc) (a b : Word), e.Valid →
    ∃ rAnd rOr rNor,
      alu e a b e.fnAnd = some rAnd ∧ alu e a b e.fnOr = some rOr ∧ alu e a b e.fnNor = some rNor ∧
      ∀ k : Nat, k < 32 →
        rAnd.getLsbD k = (a.getLsbD k && b.getLsbD k) ∧
        rOr.getLsbD k = (a.getLsbD k || b.getLsbD k) ∧
        rNor.getLsbD k = !(a.getLsbD k || b.getLsbD k)

/-- SLT is 1 or 0 by the signed comparison (R146, with its example). -/
def Obligations.AluSltIsSigned : Prop :=
  ∀ e : Enc, e.Valid →
    (∀ a b : Word,
      (s32 a < s32 b → alu e a b e.fnSlt = some 1) ∧ (¬s32 a < s32 b → alu e a b e.fnSlt = some 0)) ∧
    alu e 0xFFFFFFFF 0 e.fnSlt = some 1

/-- A successful invocation sets `zero` to `result == 0`, whatever the function code, and changes nothing else; the ALU's
reset clears `zero` and touches nothing else (R148, R149). -/
def Obligations.AluSetsZeroFlagAlone : Prop :=
  (∀ (a b r : Word) (f : BitVec 6) (s t : State),
    runAlu a b f s = .ok (r, t) → t = { s with zero := decide (r = 0) }) ∧
  ∀ s : State, aluReset s = { s with zero := false }

/-- A function code that is none of the six raises `UnknownFunct` with that code, gives no result and leaves `zero` as it was;
and one of the six never raises (R147, first sentence). -/
def Obligations.UnsupportedFunctRaises : Prop :=
  ∀ (a b : Word) (f : BitVec 6) (s : State),
    (f ∉ s.cfg.enc.functs →
      ∃ t, runAlu a b f s = .error (.unknownFunct f t) ∧ t = { s with fault := some (.unknownFunct f) }) ∧
    (f ∈ s.cfg.enc.functs → ∃ r t, runAlu a b f s = .ok (r, t))

/-! ### The register file -/

/-- A write to register 0 raises `Reg0Write` whatever the value, with no register changed, and register 0 reads 0
(10_state.md R23; the read is R22's first sentence). -/
def Obligations.RegisterZeroWriteIsFatal : Prop :=
  (∀ (during : FsmState) (v : Word) (s : State),
    ∃ t, writeReg during 0 v s = .error (.reg0Write during t) ∧ t.regs = s.regs) ∧
  ∀ s : State, s.readReg 0 = 0

/-- A write to a register other than 0 succeeds and stores the value; every other register keeps its own; and the value is
read until a cycle writes that register back: a cycle that changes what register `id` reads is a write-back cycle whose
destination is `id`; after a reset it reads 0 (R24; that only the two write-back states write registers is R25's inference from the
control table, log entry 19; the reset is R45). -/
def Obligations.RegisterReadsLastWrite : Prop :=
  (∀ (during : FsmState) (id : RegIx) (v : Word) (s : State), id ≠ 0 →
    ∃ t, writeReg during id v s = .ok t ∧ t.readReg id = v ∧ ∀ j, j ≠ id → t.readReg j = s.readReg j) ∧
  (∀ (id : RegIx) (s t : State) (p : ClkPorts), s.cfg.enc.Valid → clock s = .ok (t, p) →
    t.readReg id ≠ s.readReg id →
      (s.fsmState = .rTypeWriteback ∧ id = s.ir.extractLsb' 11 5) ∨
      (s.fsmState = .iTypeReadWriteback ∧ id = s.ir.extractLsb' 16 5)) ∧
  ∀ (id : RegIx) (s : State), s.resetCore.readReg id = 0

/-! ### The data memory -/

/-- A read in range gives the four bytes at the address, the lowest the most significant, and every read out of range raises
`MemOutOfRange` (20_memory.md R52, R54). -/
def Obligations.MemReadIsBigEndian : Prop :=
  ∀ (addr : Word) (s : State),
    (legal s addr → memRead addr s = .ok (fourBytes s addr.toNat)) ∧
    (¬legal s addr → ∃ t, memRead addr s = .error (.memOutOfRange addr.toInt t) ∧ t.mem = s.mem)

/-- A write in range puts the word's bytes at the four addresses, the most significant lowest, changes no other byte and
nothing but the memory; a write out of range raises before any byte is written (R53, R54). -/
def Obligations.MemWriteStoresFourBytes : Prop :=
  ∀ (addr v : Word) (s : State), s.mem.wf →
    (legal s addr →
      ∃ t, memWrite addr v s = .ok t ∧
        t.mem.read addr.toNat = v.extractLsb' 24 8 ∧
        t.mem.read (addr.toNat + 1) = v.extractLsb' 16 8 ∧
        t.mem.read (addr.toNat + 2) = v.extractLsb' 8 8 ∧
        t.mem.read (addr.toNat + 3) = v.extractLsb' 0 8 ∧
        (∀ a, a < addr.toNat ∨ addr.toNat + 4 ≤ a → t.mem.read a = s.mem.read a) ∧
        t = { s with mem := t.mem }) ∧
    (¬legal s addr → ∃ t, memWrite addr v s = .error (.memOutOfRange addr.toInt t) ∧ t.mem = s.mem)

/-- A read that overlaps a write sees, byte by byte, the written byte inside `[a, a + 4)` and the older byte outside; with the
source's example (R60). -/
def Obligations.OverlappingReadSeesLatestBytes : Prop :=
  (∀ (a b v : Word) (s t : State), s.mem.wf → legal s a → legal s b → memWrite a v s = .ok t →
    ∃ r, memRead b t = .ok r ∧
      ∀ k : Nat, k < 4 →
        r.extractLsb' (24 - 8 * k) 8 =
          if a.toNat ≤ b.toNat + k ∧ b.toNat + k < a.toNat + 4 then
            v.extractLsb' (24 - 8 * (b.toNat + k - a.toNat)) 8
          else s.mem.read (b.toNat + k)) ∧
  ∃ t, memWrite 0 0xFFFFFFFF State.reset = .ok t ∧ memRead 0 t = .ok (wrap32 (-1)) ∧ memRead 1 t = .ok (wrap32 (-256))

/-! ### One cycle -/

/-- The PC a cycle leaves: where the enable holds, this cycle's ALU result (which step 9 latches in `alu_output`), the
`alu_output` of the cycle before, or the jump target of the latched word; else the PC unchanged. The enable is
`(branch AND (zero XOR negate_zero)) OR pc_write`, with the flag this cycle wrote (40_datapath.md R121, R122). -/
def Obligations.ClockWritesPcWhenEnabled : Prop :=
  ∀ (s t : State) (p : ClkPorts), s.cfg.enc.Valid → clock s = .ok (t, p) →
    let d := decision s.cfg.enc s.fsmState s.fsmOpcode
    t.pc =
      if (d.branch && (t.zero ^^ d.negateZero)) || d.pcWrite then
        match d.pcSource with
        | .aluResult => t.aluOutput
        | .aluOut => s.aluOutput
        | .jumpTarget => s.pc.extractLsb' 28 4 ++ t.ir.extractLsb' 0 26 ++ (0 : BitVec 2)
      else s.pc

/-- The instruction latch: a cycle whose `ir_write` is set latches the word read, its opcode and function code, and the two
registers it names; any other cycle changes none of the five (R117). -/
def Obligations.ClockLatchesInstructionAndOperands : Prop :=
  ∀ (s t : State) (p : ClkPorts), s.cfg.enc.Valid → clock s = .ok (t, p) →
    ((decision s.cfg.enc s.fsmState s.fsmOpcode).irWrite = true →
      ∃ w, instrRead s.pc true s = .ok w ∧ t.ir = w ∧ t.fsmOpcode = w.extractLsb' 26 6 ∧ t.fsmFunct = w.extractLsb' 0 6 ∧
        t.operandA = s.readReg (w.extractLsb' 21 5) ∧ t.operandB = s.readReg (w.extractLsb' 16 5)) ∧
    ((decision s.cfg.enc s.fsmState s.fsmOpcode).irWrite = false →
      t.ir = s.ir ∧ t.fsmOpcode = s.fsmOpcode ∧ t.fsmFunct = s.fsmFunct ∧ t.operandA = s.operandA ∧
        t.operandB = s.operandB)

/-- The PRINT escape: a latched word with opcode and function code 0 appends `operand_a`, just latched, and puts the FSM back
in `Fetch`, while steps 6 to 10 are `Fetch`'s own, so no register or byte of memory changes; no other cycle appends anything (R118). The PC, `alu_output` and `zero` of `Fetch` are R101
(log entry 19); `printed` is the ports `print_data` and `print_valid` of 60_exceptions.md R236 (decision D23, log entry 20). -/
def Obligations.PrintEscapesToFetch : Prop :=
  ∀ (s t : State) (p : ClkPorts), s.cfg.enc.Valid → clock s = .ok (t, p) →
    let d := decision s.cfg.enc s.fsmState s.fsmOpcode
    (d.irWrite = true ∧ t.ir.extractLsb' 26 6 = 0 ∧ t.ir.extractLsb' 0 6 = 0 →
      t.out = s.out ++ [t.operandA] ∧ t.fsmState = .fetch ∧ t.pc = s.pc + 4 ∧ t.aluOutput = s.pc + 4 ∧
        t.zero = decide (s.pc + 4 = 0) ∧ t.regs = s.regs ∧ t.mem = s.mem ∧
        p.printed = some t.operandA) ∧
    (¬(d.irWrite = true ∧ t.ir.extractLsb' 26 6 = 0 ∧ t.ir.extractLsb' 0 6 = 0) → t.out = s.out ∧ p.printed = none)

/-- The transition table: the state a cycle leaves, by the state it ran and the latched opcode (R112; the override of
`Fetch` for PRINT is R118). A cycle that completes in `Decode` or `ITypeAddressCompute` had an opcode the table lists (the
refusal in the second is decision D29). -/
def Obligations.ClockFollowsTransitionTable : Prop :=
  ∀ (s t : State) (p : ClkPorts), s.cfg.enc.Valid → clock s = .ok (t, p) →
    match s.fsmState with
    | .fetch => t.fsmState = if t.fsmOpcode = 0 ∧ t.fsmFunct = 0 then .fetch else .decode
    | .decode =>
      (s.fsmOpcode = 0 ∧ t.fsmState = .rTypeExecute) ∨
      (s.fsmOpcode = s.cfg.enc.opJ ∧ t.fsmState = .jType) ∨
      ((s.fsmOpcode = s.cfg.enc.opBeq ∨ s.fsmOpcode = s.cfg.enc.opBne) ∧ t.fsmState = .branch) ∨
      ((s.fsmOpcode = s.cfg.enc.opLw ∨ s.fsmOpcode = s.cfg.enc.opSw) ∧ t.fsmState = .iTypeAddressCompute)
    | .iTypeAddressCompute =>
      (s.fsmOpcode = s.cfg.enc.opLw ∧ t.fsmState = .iTypeMemoryRead) ∨
      (s.fsmOpcode = s.cfg.enc.opSw ∧ t.fsmState = .iTypeMemoryWrite)
    | .iTypeMemoryRead => t.fsmState = .iTypeReadWriteback
    | .rTypeExecute => t.fsmState = .rTypeWriteback
    | .iTypeMemoryWrite => t.fsmState = .fetch
    | .iTypeReadWriteback => t.fsmState = .fetch
    | .rTypeWriteback => t.fsmState = .fetch
    | .branch => t.fsmState = .fetch
    | .jType => t.fsmState = .fetch

/-- Registers are written in the two write-back states alone, from the latched `alu_output` or `data` (10_state.md R25;
40_datapath.md R105, R109, R123), and the memory in `ITypeMemoryWrite` alone, `operand_b` at the latched address (R108,
R115). The configuration, the snapshot and the absence of a fault never change (10_state.md R37, R38, R40). -/
def Obligations.ClockWritesStateOnlyInItsPlace : Prop :=
  ∀ (s t : State) (p : ClkPorts), s.cfg.enc.Valid → clock s = .ok (t, p) →
    (t.regs =
      match s.fsmState with
      | .rTypeWriteback => s.regs.set (s.ir.extractLsb' 11 5).toNat s.aluOutput (s.ir.extractLsb' 11 5).isLt
      | .iTypeReadWriteback => s.regs.set (s.ir.extractLsb' 16 5).toNat s.data (s.ir.extractLsb' 16 5).isLt
      | _ => s.regs) ∧
    (t.mem = if s.fsmState = .iTypeMemoryWrite then s.mem.writeWord s.aluOutput.toNat s.operandB else s.mem) ∧
    t.cfg = s.cfg ∧ t.snapshot = s.snapshot ∧ t.fault = s.fault

/-- `zero` is this cycle's ALU result compared with 0, in every cycle (10_state.md R29, R32; 41_alu_rtype.md R148). -/
def Obligations.ClockZeroFlagIsResultTest : Prop :=
  ∀ (s t : State) (p : ClkPorts), s.cfg.enc.Valid → clock s = .ok (t, p) → t.zero = decide (t.aluOutput = 0)

/-- `clock()` returns `false` exactly when the PC is past the end (decision D12: `u32(PC) >= L`) and the FSM is back in
`Fetch`: never in the middle of an instruction (40_datapath.md R125; 70_reset_and_hazards.md R250). -/
def Obligations.ClockReturnsFalseAtTheEnd : Prop :=
  ∀ (s t : State) (p : ClkPorts), s.cfg.enc.Valid → clock s = .ok (t, p) →
    (p.running = false ↔ s.cfg.code.length ≤ u32 t.pc ∧ t.fsmState = .fetch)

/-- The fault table: what a cycle raises, in which state, for which value, and that no other fault is raised; the selector
faults and the construction refusals never are (60_exceptions.md R210 to R216; the fetch fault is decision D10, log entry 12; the
raise in `ITypeAddressCompute` is decision D29, log entry 19). -/
def Obligations.ClockFaultsOnlyByTheTable : Prop :=
  ∀ (s : State) (f : Fault), s.cfg.enc.Valid → clock s = .error f →
    match f.record with
    | .unknownOpcode op =>
      op = s.fsmOpcode ∧
        ((s.fsmState = .decode ∧ op ∉ 0 :: s.cfg.enc.opcodes) ∨
          (s.fsmState = .iTypeAddressCompute ∧ op ≠ s.cfg.enc.opLw ∧ op ≠ s.cfg.enc.opSw))
    | .unknownFunct fn => s.fsmState = .rTypeExecute ∧ fn = s.fsmFunct ∧ fn ∉ s.cfg.enc.functs
    | .reg0Write during =>
      during = s.fsmState ∧
        ((s.fsmState = .rTypeWriteback ∧ s.ir.extractLsb' 11 5 = 0) ∨
          (s.fsmState = .iTypeReadWriteback ∧ s.ir.extractLsb' 16 5 = 0))
    | .memOutOfRange a =>
      (s.fsmState = .iTypeMemoryRead ∨ s.fsmState = .iTypeMemoryWrite) ∧ a = s32 s.aluOutput ∧ ¬legal s s.aluOutput
    | .fetchOutOfRange a => s.fsmState = .fetch ∧ a = s.pc ∧ s.cfg.code.length < u32 s.pc + 4
    | .unknownSelector _ => False
    | .codeLength _ => False
    | .imageTooLarge _ => False

/-- The state a fault leaves: the record is set, and no register, byte of memory or output has changed in the cycle that
raised it (10_state.md R40; 60_exceptions.md R214, R215, R219, R221). -/
def Obligations.FaultRecordsAndWritesNothing : Prop :=
  ∀ (s : State) (f : Fault), s.cfg.enc.Valid → clock s = .error f →
    ∃ t, f.stopped = some t ∧ t.fault = some f.record ∧ t.regs = s.regs ∧ t.mem = s.mem ∧ t.out = s.out ∧
      t.snapshot = s.snapshot ∧ t.cfg = s.cfg ∧ t.pc = s.pc

/-- A write-back that selects register 0 raises `Reg0Write`, in `RTypeWriteback` by rd and in `ITypeReadWriteback` by rt, in step
8: no register and no byte is written, and the latches of step 9 keep their values (60_exceptions.md R214). -/
def Obligations.WritebackToZeroRaises : Prop :=
  ∀ s : State,
    (s.fsmState = .rTypeWriteback → s.ir.extractLsb' 11 5 = 0 →
      ∃ t, clock s = .error (.reg0Write .rTypeWriteback t) ∧ t.regs = s.regs ∧ t.mem = s.mem ∧
        t.aluOutput = s.aluOutput ∧ t.data = s.data) ∧
    (s.fsmState = .iTypeReadWriteback → s.ir.extractLsb' 16 5 = 0 →
      ∃ t, clock s = .error (.reg0Write .iTypeReadWriteback t) ∧ t.regs = s.regs ∧ t.mem = s.mem ∧
        t.aluOutput = s.aluOutput ∧ t.data = s.data)

/-- A data access out of range raises `MemOutOfRange` with the signed address, from the write of step 3 and from the read
of step 4: no byte is read or written, and the ALU of step 6 has not run (60_exceptions.md R215). -/
def Obligations.DataAccessOutOfRangeRaises : Prop :=
  ∀ s : State, (s.fsmState = .iTypeMemoryWrite ∨ s.fsmState = .iTypeMemoryRead) → ¬legal s s.aluOutput →
    ∃ t, clock s = .error (.memOutOfRange (s32 s.aluOutput) t) ∧ t.mem = s.mem ∧ t.data = s.data ∧ t.regs = s.regs ∧
      t.zero = s.zero ∧ t.aluOutput = s.aluOutput

/-! ### Instructions -/

/-- ADD and SUB (41_alu_rtype.md R150, R151): the wrapped sum and difference in `rd`. The last values of `zero`, `alu_output`
and `data` are left open (10_state.md R43). -/
def Obligations.AddAndSubComplete : Prop :=
  RTypeDoes .add (fun a b => wrap32 (s32 a + s32 b)) ∧ RTypeDoes .sub (fun a b => wrap32 (s32 a - s32 b))

/-- AND, OR and NOR (R152, R153, R154); the latches as in ADD. -/
def Obligations.LogicOperationsComplete : Prop :=
  RTypeDoes .and (fun a b => a &&& b) ∧ RTypeDoes .or (fun a b => a ||| b) ∧ RTypeDoes .nor (fun a b => ~~~(a ||| b))

/-- SLT (R155): 1 if the signed comparison holds, else 0; the latches as in ADD. -/
def Obligations.SetLessThanCompletes : Prop :=
  RTypeDoes .slt (fun a b => if s32 a < s32 b then 1 else 0)

/-- LW (42_load_store.md R161): with a legal address and `rt` not 0 it completes with the four bytes in `rt`; with a legal
address and `rt` 0 it stops by `Reg0Write` after the read; out of range it stops by `MemOutOfRange`, whatever `rt` is
(60_exceptions.md R222). The address is decision D8; the last latches are left open (R43). -/
def Obligations.LoadWordCompletes : Prop :=
  ∀ (rs rt : RegIx) (ign imm8 : BitVec 8) (s : State),
    (legal s (ea s rs imm8) → rt ≠ 0 →
      ∃ t, exec (.lw rs rt ign imm8) s = .next t ∧
        t = { completedBut s (encode s.cfg.enc (.lw rs rt ign imm8)) (s.pc + 4) t with
          regs := s.regs.set rt.toNat (fourBytes s (ea s rs imm8).toNat) rt.isLt }) ∧
    (legal s (ea s rs imm8) → rt = 0 →
      ∃ t, exec (.lw rs rt ign imm8) s = .fault (.reg0Write .iTypeReadWriteback t) ∧ t.regs = s.regs ∧ t.mem = s.mem) ∧
    (¬legal s (ea s rs imm8) →
      ∃ t, exec (.lw rs rt ign imm8) s = .fault (.memOutOfRange (s32 (ea s rs imm8)) t) ∧ t.regs = s.regs ∧ t.mem = s.mem)

/-- SW (R162): with a legal address it completes, the four bytes at the address become `rt`'s big-endian bytes and no other
byte, and no register, changes; `rt` 0 stores 0. Out of range it stops and no byte is written. The memory is one that has its
canonical form, as every reachable memory has. The address is decision D8; the last latches are left open (R43). -/
def Obligations.StoreWordCompletes : Prop :=
  ∀ (rs rt : RegIx) (ign imm8 : BitVec 8) (s : State), s.mem.wf →
    (legal s (ea s rs imm8) →
      ∃ t, exec (.sw rs rt ign imm8) s = .next t ∧
        t = { completedBut s (encode s.cfg.enc (.sw rs rt ign imm8)) (s.pc + 4) t with mem := t.mem } ∧
        fourBytes t (ea s rs imm8).toNat = s.readReg rt ∧
        ∀ a, a < (ea s rs imm8).toNat ∨ (ea s rs imm8).toNat + 4 ≤ a → t.mem.read a = s.mem.read a) ∧
    (¬legal s (ea s rs imm8) →
      ∃ t, exec (.sw rs rt ign imm8) s = .fault (.memOutOfRange (s32 (ea s rs imm8)) t) ∧ t.mem = s.mem ∧
        t.regs = s.regs)

/-- BEQ and BNE (43_control_transfer.md R181, R182): taken exactly when the registers are equal, or differ; `zero` is the
comparison, not the decision. The target's base and offset are decision D7; `alu_output` and `data` are left
open (R43). -/
def Obligations.BranchesComplete : Prop :=
  BranchDoes .beq (fun a b => decide (a = b)) ∧ BranchDoes .bne (fun a b => decide (a ≠ b))

/-- J (R183, R184): the PC becomes the top four bits of `A + 4` (decision D28), the field, and two zero bits. The last latches
are left open (R43). -/
def Obligations.JumpCompletes : Prop :=
  ∀ (addr26 : BitVec 26) (s : State),
    ∃ t, exec (.j addr26) s = .next t ∧
      t = completedBut s (encode s.cfg.enc (.j addr26)) ((s.pc + 4).extractLsb' 28 4 ++ addr26 ++ (0 : BitVec 2)) t

/-- PRINT (44_print.md R200): the register's value is appended, and `alu_output` and `zero` are those of the `Fetch` cycle's increment
(`data` is left open: R43, decision D9). -/
def Obligations.PrintCompletes : Prop :=
  ∀ (rs rt rd : RegIx) (ign : BitVec 5) (s : State),
    ∃ t, exec (.print rs rt rd ign) s = .next t ∧
      t = { completed s (encode s.cfg.enc (.print rs rt rd ign)) (s.pc + 4) (s.pc + 4) t.data (s.pc + 4 == 0) with
        out := s.out ++ [s.readReg rs] }

/-- An instruction answers a next state exactly when its write-back is not to register 0 and its data access is legal; when it
does not, it stops by the one of those two faults, and it is never refused (60_exceptions.md R214, R215, R218). -/
def Obligations.InstructionCompletesExactlyWhen : Prop :=
  ∀ (i : Instr) (s : State),
    (completes i s = true → ∃ t, exec i s = .next t) ∧
    (completes i s = false →
      (∃ d t, exec i s = .fault (.reg0Write d t)) ∨ (∃ a t, exec i s = .fault (.memOutOfRange a t)))

/-- The frame of every instruction that completes: each register but its destination reads as before; each byte outside the
four it stores to reads as before, all of memory for an instruction that stores nothing; the output grows by the printed word
alone; the configuration, the snapshot and the fault record are unchanged; `IR`, the FSM's copies and the operand latches are those
of its word (10_state.md R30, R31, R34; 20_memory.md R53; 41_alu_rtype.md, 42_load_store.md, 43_control_transfer.md, 44_print.md). -/
def Obligations.InstructionFrame : Prop :=
  ∀ (i : Instr) (s t : State), s.mem.wf → exec i s = .next t →
    (∀ r, i.destReg ≠ some r → t.readReg r = s.readReg r) ∧
    (∀ a, (∀ b, storeAddr i s = some b → a < b ∨ b + 4 ≤ a) → t.mem.read a = s.mem.read a) ∧
    t.out = s.out ++ (printedBy i s).toList ∧
    t.cfg = s.cfg ∧ t.snapshot = s.snapshot ∧ t.fault = s.fault ∧
    t.fsmState = .fetch ∧
    t.ir = encode s.cfg.enc i ∧
    t.fsmOpcode = (encode s.cfg.enc i).extractLsb' 26 6 ∧
    t.fsmFunct = (encode s.cfg.enc i).extractLsb' 0 6 ∧
    t.operandA = s.readReg ((encode s.cfg.enc i).extractLsb' 21 5) ∧
    t.operandB = s.readReg ((encode s.cfg.enc i).extractLsb' 16 5)

/-- A branch target is one of `A + 4`, `A + 8`, …, `A + 1024` and a multiple of 4 when `A` is; so is a jump target, always
(43_control_transfer.md R180, R184, R185, R189; decisions D7, D28). -/
def Obligations.TransferTargetsAreAligned : Prop :=
  (∀ (a : Word) (imm8 : BitVec 8), u32 a % 4 = 0 →
    u32 (branchTarget (a + 4) imm8) % 4 = 0 ∧
    ∃ k : Nat, 1 ≤ k ∧ k ≤ 256 ∧ branchTarget (a + 4) imm8 = a + BitVec.ofNat 32 (4 * k)) ∧
  ∀ (pc : Word) (addr26 : BitVec 26),
    u32 (jumpTarget pc addr26) % 4 = 0 ∧ u32 (jumpTarget pc addr26) / 2 ^ 28 = u32 pc / 2 ^ 28

/-! ### Steps and cycles -/

/-- When no fault is set, the FSM is in `Fetch` and the bytes at the PC decode to an instruction, a step is that instruction's
meaning. The meaning itself advances the PC; the step adds nothing (log entry 2). -/
def Obligations.StepRunsDecodedInstr : Prop :=
  ∀ (i : Instr) (s : State) (rest : List Byte), s.fault = none → s.fsmState = .fetch →
    decode s.cfg.enc (s.cfg.code.drop (u32 s.pc)) = .ok (i, rest) → step s = exec i s

/-- A step is exactly the `clock()` cycles until the FSM is back in `Fetch`, from every state with a valid `ENC` and no fault:
each instruction's net effect is what the datapath's ten steps compute, every latch, register, byte, output and fault included
(40_datapath.md R101 to R126 against 41_alu_rtype.md R150 to R157, 42_load_store.md R161, R162, 43_control_transfer.md R181 to
R183, 44_print.md R200). -/
def Obligations.StepIsTheDatapathsCycles : Prop :=
  ∀ s : State, s.cfg.enc.Valid → s.fault = none → step s = outcome (clocksToFetch 5 s)

/-- An instruction that completes takes exactly its number of `clock()` cycles, and in none of the cycles before the last is the FSM
back in `Fetch` (40_datapath.md R129; 70_reset_and_hazards.md R249). -/
def Obligations.InstructionTakesItsCycles : Prop :=
  ∀ (i : Instr) (s t : State) (rest : List Byte), s.cfg.enc.Valid → s.fault = none → s.fsmState = .fetch →
    decode s.cfg.enc (s.cfg.code.drop (u32 s.pc)) = .ok (i, rest) → exec i s = .next t →
      clocks i.cycles s = .ok t ∧
      ∀ (k : Nat) (u : State), 0 < k → k < i.cycles → clocks k s = .ok u → u.fsmState ≠ .fetch

/-- From any state, five cycles without a fault pass through `Fetch`: no control state waits (40_datapath.md R112, R129;
60_exceptions.md R232). -/
def Obligations.FetchIsReachedWithinFiveCycles : Prop :=
  ∀ s t : State, s.cfg.enc.Valid → clocksToFetch 5 s = .ok t → t.fsmState = .fetch

/-- A step at a word with an illegal opcode stops by `UnknownOpcode` in `Decode`, the `Fetch` cycle having completed: the PC is
`A + 4` (60_exceptions.md R211, R221; 30_encoding.md R81). -/
def Obligations.IllegalOpcodeStopsInDecode : Prop :=
  ∀ (s : State) (op : BitVec 6), s.cfg.enc.Valid → s.fault = none → s.fsmState = .fetch → u32 s.pc + 4 ≤ s.cfg.code.length →
    decodeWord s.cfg.enc (codeWord s.cfg.code (u32 s.pc)) = .error (.illegalOpcode op) →
      ∃ t, step s = .fault (.unknownOpcode op t) ∧ t.fsmState = .decode ∧ t.pc = s.pc + 4 ∧
        t.ir = codeWord s.cfg.code (u32 s.pc) ∧ t.regs = s.regs ∧ t.mem = s.mem ∧ t.out = s.out

/-- A step at an R-type word with an illegal function code stops by `UnknownFunct` in its third cycle: two cycles, `Fetch` and
`Decode`, complete, and the `RTypeExecute` cycle after them raises, its step 1 done and no register written, whatever `rd` is
(41_alu_rtype.md R157; 60_exceptions.md R212, R221, R222). That `Decode` has left `A + 4 + 4 * imm8` in `alu_output` is decision D7
(log entry 10). -/
def Obligations.IllegalFunctStopsInExecute : Prop :=
  ∀ (s : State) (fn : BitVec 6), s.cfg.enc.Valid → s.fault = none → s.fsmState = .fetch → u32 s.pc + 4 ≤ s.cfg.code.length →
    decodeWord s.cfg.enc (codeWord s.cfg.code (u32 s.pc)) = .error (.illegalFunct fn) →
      ∃ u t, clocks 2 s = .ok u ∧ u.fsmState = .rTypeExecute ∧ clock u = .error (.unknownFunct fn t) ∧
        step s = .fault (.unknownFunct fn t) ∧ t.fsmState = .rTypeWriteback ∧
        t.pc = s.pc + 4 ∧ t.ir = codeWord s.cfg.code (u32 s.pc) ∧
        t.aluOutput = s.pc + 4 + BitVec.ofNat 32 (4 * (t.ir.extractLsb' 0 8).toNat) ∧
        t.operandA = s.readReg (t.ir.extractLsb' 21 5) ∧ t.operandB = s.readReg (t.ir.extractLsb' 16 5) ∧
        t.regs = s.regs ∧ t.mem = s.mem ∧ t.out = s.out

/-- A step in `Fetch` past the end of the stream stops by `FetchOutOfRange` with the PC: an empty stream, or a further call after
the run has ended (20_memory.md R58; 60_exceptions.md R216, R237; decisions D10, D27). -/
def Obligations.FetchPastEndStops : Prop :=
  ∀ s : State, s.fault = none → s.fsmState = .fetch → s.cfg.code.length < u32 s.pc + 4 →
    ∃ t, step s = .fault (.fetchOutOfRange s.pc t) ∧ t.regs = s.regs ∧ t.mem = s.mem ∧ t.out = s.out ∧ t.pc = s.pc

/-- A state with a fault set admits no step, no `clock()` and no `reset()` (60_exceptions.md R220; decision D17). -/
def Obligations.FaultedStateAdmitsNothing : Prop :=
  ∀ (s : State) (r : FaultRecord), s.fault = some r →
    step s = .refused (.faulted r) ∧ hostClock s = .refused (.faulted r) ∧ hostReset s = .refused (.faulted r)

/-! ### The invariant -/

/-- The reset state has the invariant (10_state.md R44). That `fsm_opcode` and `fsm_funct`, which the invariant compares with `IR`, are 0
is decision D15 (log entry 6). -/
def Obligations.ResetStateHasInvariant : Prop := State.reset.Inv

/-- Every valid configuration is accepted and gives a state that has the invariant; an invalid stream or image is refused by name
(10_state.md R44; 60_exceptions.md R217; 70_reset_and_hazards.md R240; the refusals are decisions D11, D14, and that the stream's is looked at first is log entry 13). The fresh
state's `fsm_opcode` and `fsm_funct`, which the invariant compares with `IR`, are decision D15 (log entry 6). -/
def Obligations.ConstructionGivesInvariantOrRefuses : Prop :=
  ∀ c : Config,
    (c.Valid → construct c = .next (State.fresh c) ∧ (State.fresh c).Inv) ∧
    (¬(c.code.length % 4 = 0 ∧ c.code.length < 2 ^ 32) → construct c = .fault (.codeLength c.code.length)) ∧
    (c.code.length % 4 = 0 ∧ c.code.length < 2 ^ 32 → c.memSize < c.initMem.length →
      construct c = .fault (.imageTooLarge c.initMem.length))

/-- Memory after construction: the image at the low end, then zeros, in the data memory and in the snapshot (20_memory.md R63;
10_state.md R44; 70_reset_and_hazards.md R240). -/
def Obligations.ConstructionLoadsImage : Prop :=
  ∀ (c : Config) (a : Nat),
    (State.fresh c).mem.read a = (if h : a < c.initMem.length then c.initMem[a] else 0) ∧
    (State.fresh c).snapshot.read a = (State.fresh c).mem.read a

/-- Every cycle keeps the invariant: register 0 holds 0, the PC is a multiple of 4, the memory is canonical and within
`MEM_SIZE`, the snapshot is the image, the FSM's copies equal `IR`'s fields, and each control state has an opcode that leads to it
(10_state.md R22, R27, R34, R37; 40_datapath.md R112; 43_control_transfer.md R189). -/
def Obligations.ClockKeepsInvariant : Prop :=
  ∀ (s t : State) (p : ClkPorts), s.Inv → clock s = .ok (t, p) → t.Inv

/-- Every step keeps the invariant. -/
def Obligations.StepKeepsInvariant : Prop :=
  ∀ s t : State, s.Inv → step s = .next t → t.Inv

/-- Every state a host can reach by `clock()` and `reset()` from a valid configuration has the invariant, with the configuration it
was constructed with (60_exceptions.md R233, R234; 00_scope.md R9). The constructed state's `fsm_opcode` and `fsm_funct` are decision
D15 (log entry 6). -/
def Obligations.ReachableStatesHaveInvariant : Prop :=
  ∀ (c : Config) (s : State), c.Valid → Reachable c s → s.Inv ∧ s.cfg = c

/-! ### Reset -/

/-- While no fault is set `reset()` is admitted; what it sets and what it leaves (10_state.md R45; 70_reset_and_hazards.md R241;
that the latches, the snapshot and the output stay is decision D16), and that a second one changes nothing (R242). -/
def Obligations.ResetSetsAndIsIdempotent : Prop :=
  ∀ s : State, s.fault = none →
    ∃ t, hostReset s = .next t ∧
      t.pc = 0 ∧ t.mem = s.snapshot ∧ (∀ r, t.readReg r = 0) ∧ t.zero = false ∧ t.fsmState = .fetch ∧
      t.snapshot = s.snapshot ∧ t.out = s.out ∧ t.cfg = s.cfg ∧
      t.ir = s.ir ∧ t.operandA = s.operandA ∧ t.operandB = s.operandB ∧ t.aluOutput = s.aluOutput ∧ t.data = s.data ∧
      t.fsmOpcode = s.fsmOpcode ∧ t.fsmFunct = s.fsmFunct ∧ t.fault = none ∧
      hostReset t = .next t

/-- Replay: after `reset()` in any state that has the invariant, with a nonempty stream, every number of cycles from 1 on gives what it
gives after construction, with the output of before in front: the same registers, memory, latches and control state, or the
same fault in the same state (70_reset_and_hazards.md R243; that the output stays is decisions D15, D16). -/
def Obligations.ReplayAfterResetIsIdentical : Prop :=
  ∀ (s : State) (n : Nat), s.Inv → s.cfg.code ≠ [] → 0 < n →
    (∀ t, clocks n (State.fresh s.cfg) = .ok t → clocks n s.resetCore = .ok (t.withOutBefore s.out)) ∧
    (∀ f, clocks n (State.fresh s.cfg) = .error f →
      ∃ g, clocks n s.resetCore = .error g ∧ g.record = f.record ∧
        g.stopped = f.stopped.map (State.withOutBefore s.out))

/-- A selector number outside its enumeration raises `UnknownSelector`, and every number inside is its own selector's
(60_exceptions.md R213; the numbers are decision D3, the raise decision D30). -/
def Obligations.SelectorNumbersAreClosed : Prop :=
  ∀ (n : Nat) (s : State),
    (2 ≤ n → ∃ t, aluSrcAOfNumber n s = .error (.unknownSelector .aluSrcA t)) ∧
    (4 ≤ n → ∃ t, aluSrcBOfNumber n s = .error (.unknownSelector .aluSrcB t)) ∧
    (3 ≤ n → ∃ t, pcSourceOfNumber n s = .error (.unknownSelector .pcSource t)) ∧
    (∀ a : AluSrcA, aluSrcAOfNumber a.number s = .ok a) ∧
    (∀ b : AluSrcB, aluSrcBOfNumber b.number s = .ok b) ∧
    (∀ p : PcSource, pcSourceOfNumber p.number s = .ok p)

/-! ### What the host is admitted -/

/-- While no fault is set, `clock()` is admitted and is the cycle: its state and ports when it completes, its fault when it raises; and a
step is never refused (60_exceptions.md R220, R233; 70_reset_and_hazards.md R241). With a fault set all are refused
(FaultedStateAdmitsNothing, decision D17). -/
def Obligations.ClockAndStepAreAdmittedWithoutFault : Prop :=
  ∀ s : State, s.fault = none →
    (∀ r, clock s = .ok r → hostClock s = .next r) ∧
    (∀ f, clock s = .error f → hostClock s = .fault f) ∧
    ∀ r, step s ≠ .refused r

/-- From every state that has the invariant, `reset()` is admitted and gives a state that has it (10_state.md R22, R27, R34, R37, R45; that
the latches stay is decision D16). -/
def Obligations.HostResetKeepsInvariant : Prop :=
  ∀ s : State, s.Inv → ∃ t, hostReset s = .next t ∧ t.Inv
end

