-- ==== Sys2Proof/Laws/Encoding.lean ====
section
/-! SUPPORT. Fields of encoded words, and words put together from their fields (30_encoding.md R71 to R74). -/

namespace Sys2Proof

/-! ### The fields of an encoded word -/

section RType
variable (rs rt rd : RegIx) (ign : BitVec 5) (fn : BitVec 6)

@[simp] theorem opcodeField_encodeRType : opcodeField (encodeRType rs rt rd ign fn) = 0 := by
  apply BitVec.eq_of_getLsbD_eq
  intro i hi
  simp only [opcodeField, encodeRType, BitVec.getLsbD_extractLsb', BitVec.getLsbD_append]
  split_ifs <;> first | omega | simp

@[simp] theorem rsField_encodeRType : rsField (encodeRType rs rt rd ign fn) = rs := by
  apply BitVec.eq_of_getLsbD_eq
  intro i hi
  simp only [rsField, encodeRType, BitVec.getLsbD_extractLsb', BitVec.getLsbD_append]
  split_ifs <;> first | omega | (rw [decide_eq_true (by omega), Bool.true_and]; congr 1; omega)

@[simp] theorem rtField_encodeRType : rtField (encodeRType rs rt rd ign fn) = rt := by
  apply BitVec.eq_of_getLsbD_eq
  intro i hi
  simp only [rtField, encodeRType, BitVec.getLsbD_extractLsb', BitVec.getLsbD_append]
  split_ifs <;> first | omega | (rw [decide_eq_true (by omega), Bool.true_and]; congr 1; omega)

@[simp] theorem rdField_encodeRType : rdField (encodeRType rs rt rd ign fn) = rd := by
  apply BitVec.eq_of_getLsbD_eq
  intro i hi
  simp only [rdField, encodeRType, BitVec.getLsbD_extractLsb', BitVec.getLsbD_append]
  split_ifs <;> first | omega | (rw [decide_eq_true (by omega), Bool.true_and]; congr 1; omega)

@[simp] theorem ignRField_encodeRType : ignRField (encodeRType rs rt rd ign fn) = ign := by
  apply BitVec.eq_of_getLsbD_eq
  intro i hi
  simp only [ignRField, encodeRType, BitVec.getLsbD_extractLsb', BitVec.getLsbD_append]
  split_ifs <;> first | omega | (rw [decide_eq_true (by omega), Bool.true_and]; congr 1; omega)

@[simp] theorem functField_encodeRType : functField (encodeRType rs rt rd ign fn) = fn := by
  apply BitVec.eq_of_getLsbD_eq
  intro i hi
  simp only [functField, encodeRType, BitVec.getLsbD_extractLsb', BitVec.getLsbD_append]
  split_ifs <;> first | omega | (rw [decide_eq_true (by omega), Bool.true_and]; congr 1; omega)

end RType

section IType
variable (op : BitVec 6) (rs rt : RegIx) (ign imm8 : BitVec 8)

@[simp] theorem opcodeField_encodeIType : opcodeField (encodeIType op rs rt ign imm8) = op := by
  apply BitVec.eq_of_getLsbD_eq
  intro i hi
  simp only [opcodeField, encodeIType, BitVec.getLsbD_extractLsb', BitVec.getLsbD_append]
  split_ifs <;> first | omega | (rw [decide_eq_true (by omega), Bool.true_and]; congr 1; omega)

@[simp] theorem rsField_encodeIType : rsField (encodeIType op rs rt ign imm8) = rs := by
  apply BitVec.eq_of_getLsbD_eq
  intro i hi
  simp only [rsField, encodeIType, BitVec.getLsbD_extractLsb', BitVec.getLsbD_append]
  split_ifs <;> first | omega | (rw [decide_eq_true (by omega), Bool.true_and]; congr 1; omega)

@[simp] theorem rtField_encodeIType : rtField (encodeIType op rs rt ign imm8) = rt := by
  apply BitVec.eq_of_getLsbD_eq
  intro i hi
  simp only [rtField, encodeIType, BitVec.getLsbD_extractLsb', BitVec.getLsbD_append]
  split_ifs <;> first | omega | (rw [decide_eq_true (by omega), Bool.true_and]; congr 1; omega)

@[simp] theorem ignIField_encodeIType : ignIField (encodeIType op rs rt ign imm8) = ign := by
  apply BitVec.eq_of_getLsbD_eq
  intro i hi
  simp only [ignIField, encodeIType, BitVec.getLsbD_extractLsb', BitVec.getLsbD_append]
  split_ifs <;> first | omega | (rw [decide_eq_true (by omega), Bool.true_and]; congr 1; omega)

@[simp] theorem imm8Field_encodeIType : imm8Field (encodeIType op rs rt ign imm8) = imm8 := by
  apply BitVec.eq_of_getLsbD_eq
  intro i hi
  simp only [imm8Field, encodeIType, BitVec.getLsbD_extractLsb', BitVec.getLsbD_append]
  split_ifs <;> first | omega | (rw [decide_eq_true (by omega), Bool.true_and]; congr 1; omega)

end IType

section JType
variable (op : BitVec 6) (addr26 : BitVec 26)

@[simp] theorem opcodeField_encodeJType : opcodeField (encodeJType op addr26) = op := by
  apply BitVec.eq_of_getLsbD_eq
  intro i hi
  simp only [opcodeField, encodeJType, BitVec.getLsbD_extractLsb', BitVec.getLsbD_append]
  split_ifs <;> first | omega | (rw [decide_eq_true (by omega), Bool.true_and]; congr 1; omega)

@[simp] theorem addr26Field_encodeJType : addr26Field (encodeJType op addr26) = addr26 := by
  apply BitVec.eq_of_getLsbD_eq
  intro i hi
  simp only [addr26Field, encodeJType, BitVec.getLsbD_extractLsb', BitVec.getLsbD_append]
  split_ifs <;> first | omega | (rw [decide_eq_true (by omega), Bool.true_and]; congr 1; omega)

end JType

/-! ### A word from its fields -/

/-- The six fields of the R-type format are all of the word. -/
theorem word_of_rFields (w : Word) :
    opcodeField w ++ rsField w ++ rtField w ++ rdField w ++ ignRField w ++ functField w = w := by
  apply BitVec.eq_of_getLsbD_eq
  intro i hi
  simp only [opcodeField, rsField, rtField, rdField, ignRField, functField, BitVec.getLsbD_extractLsb',
    BitVec.getLsbD_append]
  split_ifs <;> (rw [decide_eq_true (by omega), Bool.true_and]; congr 1; omega)

/-- The five fields of the I-type format are all of the word. -/
theorem encodeIType_fields (w : Word) :
    encodeIType (opcodeField w) (rsField w) (rtField w) (ignIField w) (imm8Field w) = w := by
  apply BitVec.eq_of_getLsbD_eq
  intro i hi
  simp only [encodeIType, opcodeField, rsField, rtField, ignIField, imm8Field, BitVec.getLsbD_extractLsb',
    BitVec.getLsbD_append]
  split_ifs <;> (rw [decide_eq_true (by omega), Bool.true_and]; congr 1; omega)

/-- The two fields of the J-type format are all of the word. -/
theorem encodeJType_fields (w : Word) : encodeJType (opcodeField w) (addr26Field w) = w := by
  apply BitVec.eq_of_getLsbD_eq
  intro i hi
  simp only [encodeJType, opcodeField, addr26Field, BitVec.getLsbD_extractLsb', BitVec.getLsbD_append]
  split_ifs <;> (rw [decide_eq_true (by omega), Bool.true_and]; congr 1; omega)

/-- An R-type word is the encoding of its fields. -/
theorem encodeRType_fields {w : Word} (h : opcodeField w = 0) :
    encodeRType (rsField w) (rtField w) (rdField w) (ignRField w) (functField w) = w := by
  conv_rhs => rw [← word_of_rFields w, h]
  rfl

/-! ### Words and bytes -/

/-- The four bytes of a word, put together again. -/
theorem wordOfBytes_bytes (w : Word) :
    wordOfBytes (w.extractLsb' 24 8) (w.extractLsb' 16 8) (w.extractLsb' 8 8) (w.extractLsb' 0 8) = w := by
  apply BitVec.eq_of_getLsbD_eq
  intro i hi
  unfold wordOfBytes
  simp only [BitVec.getLsbD_append, BitVec.getLsbD_extractLsb']
  split_ifs <;> (rw [decide_eq_true (by omega), Bool.true_and]; congr 1; omega)

section Bytes
variable (b0 b1 b2 b3 : Byte)

/-- The bytes of a word built from four bytes are those bytes. -/
theorem bytesOfWord_wordOfBytes : bytesOfWord (wordOfBytes b0 b1 b2 b3) = [b0, b1, b2, b3] := by
  have h0 : (wordOfBytes b0 b1 b2 b3).extractLsb' 24 8 = b0 := by
    apply BitVec.eq_of_getLsbD_eq
    intro i hi
    simp only [wordOfBytes, BitVec.getLsbD_extractLsb', BitVec.getLsbD_append]
    split_ifs <;> first | omega | (rw [decide_eq_true (by omega), Bool.true_and]; congr 1; omega)
  have h1 : (wordOfBytes b0 b1 b2 b3).extractLsb' 16 8 = b1 := by
    apply BitVec.eq_of_getLsbD_eq
    intro i hi
    simp only [wordOfBytes, BitVec.getLsbD_extractLsb', BitVec.getLsbD_append]
    split_ifs <;> first | omega | (rw [decide_eq_true (by omega), Bool.true_and]; congr 1; omega)
  have h2 : (wordOfBytes b0 b1 b2 b3).extractLsb' 8 8 = b2 := by
    apply BitVec.eq_of_getLsbD_eq
    intro i hi
    simp only [wordOfBytes, BitVec.getLsbD_extractLsb', BitVec.getLsbD_append]
    split_ifs <;> first | omega | (rw [decide_eq_true (by omega), Bool.true_and]; congr 1; omega)
  have h3 : (wordOfBytes b0 b1 b2 b3).extractLsb' 0 8 = b3 := by
    apply BitVec.eq_of_getLsbD_eq
    intro i hi
    simp only [wordOfBytes, BitVec.getLsbD_extractLsb', BitVec.getLsbD_append]
    split_ifs <;> first | omega | (rw [decide_eq_true (by omega), Bool.true_and]; congr 1; omega)
  simp only [bytesOfWord, h0, h1, h2, h3]

end Bytes

/-! ### What a valid numbering gives -/

/-- A valid `ENC` gives eleven inequalities between opcodes and between function codes, and none is 0 (00_scope.md
R10). -/
theorem Enc.Valid.opcodes {e : Enc} (h : e.Valid) : e.opcodes.Nodup ∧ (0 : BitVec 6) ∉ e.opcodes := by
  have := h.1
  simpa [Enc.opcodesOk] using this

theorem Enc.Valid.functs {e : Enc} (h : e.Valid) : e.functs.Nodup ∧ (0 : BitVec 6) ∉ e.functs := by
  have := h.2
  simpa [Enc.functsOk] using this

/-- The same as inequalities, one for each pair of function codes and one for each code and 0. -/
theorem Enc.Valid.functs_ne {e : Enc} (h : e.Valid) :
    e.fnSub ≠ e.fnAdd ∧ (e.fnAnd ≠ e.fnAdd ∧ e.fnAnd ≠ e.fnSub) ∧
    (e.fnOr ≠ e.fnAdd ∧ e.fnOr ≠ e.fnSub ∧ e.fnOr ≠ e.fnAnd) ∧
    (e.fnNor ≠ e.fnAdd ∧ e.fnNor ≠ e.fnSub ∧ e.fnNor ≠ e.fnAnd ∧ e.fnNor ≠ e.fnOr) ∧
    (e.fnSlt ≠ e.fnAdd ∧ e.fnSlt ≠ e.fnSub ∧ e.fnSlt ≠ e.fnAnd ∧ e.fnSlt ≠ e.fnOr ∧ e.fnSlt ≠ e.fnNor) ∧
    e.fnAdd ≠ 0#6 ∧ e.fnSub ≠ 0#6 ∧ e.fnAnd ≠ 0#6 ∧ e.fnOr ≠ 0#6 ∧ e.fnNor ≠ 0#6 ∧ e.fnSlt ≠ 0#6 := by
  obtain ⟨hd, hz⟩ := h.functs
  simp only [Enc.functs, List.nodup_cons, List.mem_cons, List.not_mem_nil, not_or, or_false] at hd hz
  obtain ⟨⟨a1, a2, a3, a4, a5⟩, ⟨b1, b2, b3, b4⟩, ⟨c1, c2, c3⟩, ⟨d1, d2⟩, e1, -⟩ := hd
  obtain ⟨z1, z2, z3, z4, z5, z6⟩ := hz
  exact ⟨Ne.symm a1, ⟨Ne.symm a2, Ne.symm b1⟩, ⟨Ne.symm a3, Ne.symm b2, Ne.symm c1⟩,
    ⟨Ne.symm a4, Ne.symm b3, Ne.symm c2, Ne.symm d1⟩,
    ⟨Ne.symm a5, Ne.symm b4, Ne.symm c3, Ne.symm d2, Ne.symm e1⟩,
    Ne.symm z1, Ne.symm z2, Ne.symm z3, Ne.symm z4, Ne.symm z5, Ne.symm z6⟩

/-- The same for the opcodes. -/
theorem Enc.Valid.opcodes_ne {e : Enc} (h : e.Valid) :
    e.opBeq ≠ e.opJ ∧ (e.opBne ≠ e.opJ ∧ e.opBne ≠ e.opBeq) ∧
    (e.opLw ≠ e.opJ ∧ e.opLw ≠ e.opBeq ∧ e.opLw ≠ e.opBne) ∧
    (e.opSw ≠ e.opJ ∧ e.opSw ≠ e.opBeq ∧ e.opSw ≠ e.opBne ∧ e.opSw ≠ e.opLw) ∧
    e.opJ ≠ 0#6 ∧ e.opBeq ≠ 0#6 ∧ e.opBne ≠ 0#6 ∧ e.opLw ≠ 0#6 ∧ e.opSw ≠ 0#6 := by
  obtain ⟨hd, hz⟩ := h.opcodes
  simp only [Enc.opcodes, List.nodup_cons, List.mem_cons, List.not_mem_nil, not_or, or_false] at hd hz
  obtain ⟨⟨a1, a2, a3, a4⟩, ⟨b1, b2, b3⟩, ⟨c1, c2⟩, d1, -⟩ := hd
  obtain ⟨z1, z2, z3, z4, z5⟩ := hz
  exact ⟨Ne.symm a1, ⟨Ne.symm a2, Ne.symm b1⟩, ⟨Ne.symm a3, Ne.symm b2, Ne.symm c1⟩,
    ⟨Ne.symm a4, Ne.symm b3, Ne.symm c2, Ne.symm d1⟩, Ne.symm z1, Ne.symm z2, Ne.symm z3, Ne.symm z4, Ne.symm z5⟩

/-! ### Decoding by case -/

/-- A word with opcode 0 is decoded by its function code. -/
theorem decodeWord_eq_rType {e : Enc} {w : Word} (h : opcodeField w = 0) : decodeWord e w = decodeRType e w := by
  unfold decodeWord
  rw [if_pos h]

/-- Decoding bytes is decoding the word they make. -/
theorem decode_bytesOfWord (e : Enc) (w : Word) (rest : List Byte) :
    decode e (bytesOfWord w ++ rest) =
      match decodeWord e w with
      | .ok i => .ok (i, rest)
      | .error r => .error r := by
  have hw : wordOfBytes (w.extractLsb' 24 8) (w.extractLsb' 16 8) (w.extractLsb' 8 8) (w.extractLsb' 0 8) = w :=
    wordOfBytes_bytes w
  simp only [bytesOfWord, List.cons_append, List.nil_append, decode, hw]
  all_goals (cases decodeWord e w <;> rfl)

/-- Bytes that decode are four bytes whose word decodes, and the rest. -/
theorem decode_cases {e : Enc} {bs rest : List Byte} {i : Instr} (h : decode e bs = .ok (i, rest)) :
    ∃ b0 b1 b2 b3, bs = b0 :: b1 :: b2 :: b3 :: rest ∧ decodeWord e (wordOfBytes b0 b1 b2 b3) = .ok i := by
  unfold decode at h
  split at h
  · rename_i b0 b1 b2 b3 r
    split at h
    · cases h
      exact ⟨b0, b1, b2, b3, rfl, ‹_›⟩
    · cases h
  · cases h

end Sys2Proof
end

