-- ==== Sys2Proof/Laws/State.lean ====
section
/-! SUPPORT. One lemma per field per named update of the state, each true by definition, so that no proof unfolds an
update. -/

namespace Sys2Proof.Machine

/-! ### `State.storeWord` -/

@[simp] theorem State.storeWord_cfg (s : State) (a : Nat) (v : Word) : (s.storeWord a v).cfg = s.cfg := rfl
@[simp] theorem State.storeWord_regs (s : State) (a : Nat) (v : Word) : (s.storeWord a v).regs = s.regs := rfl
@[simp] theorem State.storeWord_pc (s : State) (a : Nat) (v : Word) : (s.storeWord a v).pc = s.pc := rfl
@[simp] theorem State.storeWord_zero (s : State) (a : Nat) (v : Word) : (s.storeWord a v).zero = s.zero := rfl
@[simp] theorem State.storeWord_ir (s : State) (a : Nat) (v : Word) : (s.storeWord a v).ir = s.ir := rfl
@[simp] theorem State.storeWord_operandA (s : State) (a : Nat) (v : Word) : (s.storeWord a v).operandA = s.operandA := rfl
@[simp] theorem State.storeWord_operandB (s : State) (a : Nat) (v : Word) : (s.storeWord a v).operandB = s.operandB := rfl
@[simp] theorem State.storeWord_aluOutput (s : State) (a : Nat) (v : Word) : (s.storeWord a v).aluOutput = s.aluOutput := rfl
@[simp] theorem State.storeWord_data (s : State) (a : Nat) (v : Word) : (s.storeWord a v).data = s.data := rfl
@[simp] theorem State.storeWord_fsmOpcode (s : State) (a : Nat) (v : Word) : (s.storeWord a v).fsmOpcode = s.fsmOpcode := rfl
@[simp] theorem State.storeWord_fsmFunct (s : State) (a : Nat) (v : Word) : (s.storeWord a v).fsmFunct = s.fsmFunct := rfl
@[simp] theorem State.storeWord_fsmState (s : State) (a : Nat) (v : Word) : (s.storeWord a v).fsmState = s.fsmState := rfl
@[simp] theorem State.storeWord_mem (s : State) (a : Nat) (v : Word) : (s.storeWord a v).mem = s.mem.writeWord a v := rfl
@[simp] theorem State.storeWord_snapshot (s : State) (a : Nat) (v : Word) : (s.storeWord a v).snapshot = s.snapshot := rfl
@[simp] theorem State.storeWord_out (s : State) (a : Nat) (v : Word) : (s.storeWord a v).out = s.out := rfl
@[simp] theorem State.storeWord_fault (s : State) (a : Nat) (v : Word) : (s.storeWord a v).fault = s.fault := rfl

/-! ### `State.setReg` -/

@[simp] theorem State.setReg_cfg (s : State) (i : RegIx) (v : Word) : (s.setReg i v).cfg = s.cfg := rfl
@[simp] theorem State.setReg_regs (s : State) (i : RegIx) (v : Word) : (s.setReg i v).regs = s.regs.set i.toNat v i.isLt := rfl
@[simp] theorem State.setReg_pc (s : State) (i : RegIx) (v : Word) : (s.setReg i v).pc = s.pc := rfl
@[simp] theorem State.setReg_zero (s : State) (i : RegIx) (v : Word) : (s.setReg i v).zero = s.zero := rfl
@[simp] theorem State.setReg_ir (s : State) (i : RegIx) (v : Word) : (s.setReg i v).ir = s.ir := rfl
@[simp] theorem State.setReg_operandA (s : State) (i : RegIx) (v : Word) : (s.setReg i v).operandA = s.operandA := rfl
@[simp] theorem State.setReg_operandB (s : State) (i : RegIx) (v : Word) : (s.setReg i v).operandB = s.operandB := rfl
@[simp] theorem State.setReg_aluOutput (s : State) (i : RegIx) (v : Word) : (s.setReg i v).aluOutput = s.aluOutput := rfl
@[simp] theorem State.setReg_data (s : State) (i : RegIx) (v : Word) : (s.setReg i v).data = s.data := rfl
@[simp] theorem State.setReg_fsmOpcode (s : State) (i : RegIx) (v : Word) : (s.setReg i v).fsmOpcode = s.fsmOpcode := rfl
@[simp] theorem State.setReg_fsmFunct (s : State) (i : RegIx) (v : Word) : (s.setReg i v).fsmFunct = s.fsmFunct := rfl
@[simp] theorem State.setReg_fsmState (s : State) (i : RegIx) (v : Word) : (s.setReg i v).fsmState = s.fsmState := rfl
@[simp] theorem State.setReg_mem (s : State) (i : RegIx) (v : Word) : (s.setReg i v).mem = s.mem := rfl
@[simp] theorem State.setReg_snapshot (s : State) (i : RegIx) (v : Word) : (s.setReg i v).snapshot = s.snapshot := rfl
@[simp] theorem State.setReg_out (s : State) (i : RegIx) (v : Word) : (s.setReg i v).out = s.out := rfl
@[simp] theorem State.setReg_fault (s : State) (i : RegIx) (v : Word) : (s.setReg i v).fault = s.fault := rfl

/-! ### `State.appendOut` -/

@[simp] theorem State.appendOut_cfg (s : State) (v : Word) : (s.appendOut v).cfg = s.cfg := rfl
@[simp] theorem State.appendOut_regs (s : State) (v : Word) : (s.appendOut v).regs = s.regs := rfl
@[simp] theorem State.appendOut_pc (s : State) (v : Word) : (s.appendOut v).pc = s.pc := rfl
@[simp] theorem State.appendOut_zero (s : State) (v : Word) : (s.appendOut v).zero = s.zero := rfl
@[simp] theorem State.appendOut_ir (s : State) (v : Word) : (s.appendOut v).ir = s.ir := rfl
@[simp] theorem State.appendOut_operandA (s : State) (v : Word) : (s.appendOut v).operandA = s.operandA := rfl
@[simp] theorem State.appendOut_operandB (s : State) (v : Word) : (s.appendOut v).operandB = s.operandB := rfl
@[simp] theorem State.appendOut_aluOutput (s : State) (v : Word) : (s.appendOut v).aluOutput = s.aluOutput := rfl
@[simp] theorem State.appendOut_data (s : State) (v : Word) : (s.appendOut v).data = s.data := rfl
@[simp] theorem State.appendOut_fsmOpcode (s : State) (v : Word) : (s.appendOut v).fsmOpcode = s.fsmOpcode := rfl
@[simp] theorem State.appendOut_fsmFunct (s : State) (v : Word) : (s.appendOut v).fsmFunct = s.fsmFunct := rfl
@[simp] theorem State.appendOut_fsmState (s : State) (v : Word) : (s.appendOut v).fsmState = s.fsmState := rfl
@[simp] theorem State.appendOut_mem (s : State) (v : Word) : (s.appendOut v).mem = s.mem := rfl
@[simp] theorem State.appendOut_snapshot (s : State) (v : Word) : (s.appendOut v).snapshot = s.snapshot := rfl
@[simp] theorem State.appendOut_out (s : State) (v : Word) : (s.appendOut v).out = s.out ++ [v] := rfl
@[simp] theorem State.appendOut_fault (s : State) (v : Word) : (s.appendOut v).fault = s.fault := rfl

/-! ### `State.latch` -/

@[simp] theorem State.latch_cfg (s : State) (w : Word) : (s.latch w).cfg = s.cfg := rfl
@[simp] theorem State.latch_regs (s : State) (w : Word) : (s.latch w).regs = s.regs := rfl
@[simp] theorem State.latch_pc (s : State) (w : Word) : (s.latch w).pc = s.pc := rfl
@[simp] theorem State.latch_zero (s : State) (w : Word) : (s.latch w).zero = s.zero := rfl
@[simp] theorem State.latch_ir (s : State) (w : Word) : (s.latch w).ir = w := rfl
@[simp] theorem State.latch_operandA (s : State) (w : Word) : (s.latch w).operandA = s.readReg (rsField w) := rfl
@[simp] theorem State.latch_operandB (s : State) (w : Word) : (s.latch w).operandB = s.readReg (rtField w) := rfl
@[simp] theorem State.latch_aluOutput (s : State) (w : Word) : (s.latch w).aluOutput = s.aluOutput := rfl
@[simp] theorem State.latch_data (s : State) (w : Word) : (s.latch w).data = s.data := rfl
@[simp] theorem State.latch_fsmOpcode (s : State) (w : Word) : (s.latch w).fsmOpcode = opcodeField w := rfl
@[simp] theorem State.latch_fsmFunct (s : State) (w : Word) : (s.latch w).fsmFunct = functField w := rfl
@[simp] theorem State.latch_fsmState (s : State) (w : Word) : (s.latch w).fsmState = s.fsmState := rfl
@[simp] theorem State.latch_mem (s : State) (w : Word) : (s.latch w).mem = s.mem := rfl
@[simp] theorem State.latch_snapshot (s : State) (w : Word) : (s.latch w).snapshot = s.snapshot := rfl
@[simp] theorem State.latch_out (s : State) (w : Word) : (s.latch w).out = s.out := rfl
@[simp] theorem State.latch_fault (s : State) (w : Word) : (s.latch w).fault = s.fault := rfl

/-! ### `State.resetCore` -/

@[simp] theorem State.resetCore_cfg (s : State) : (s.resetCore).cfg = s.cfg := rfl
@[simp] theorem State.resetCore_regs (s : State) : (s.resetCore).regs = Vector.replicate 32 0 := rfl
@[simp] theorem State.resetCore_pc (s : State) : (s.resetCore).pc = 0 := rfl
@[simp] theorem State.resetCore_zero (s : State) : (s.resetCore).zero = false := rfl
@[simp] theorem State.resetCore_ir (s : State) : (s.resetCore).ir = s.ir := rfl
@[simp] theorem State.resetCore_operandA (s : State) : (s.resetCore).operandA = s.operandA := rfl
@[simp] theorem State.resetCore_operandB (s : State) : (s.resetCore).operandB = s.operandB := rfl
@[simp] theorem State.resetCore_aluOutput (s : State) : (s.resetCore).aluOutput = s.aluOutput := rfl
@[simp] theorem State.resetCore_data (s : State) : (s.resetCore).data = s.data := rfl
@[simp] theorem State.resetCore_fsmOpcode (s : State) : (s.resetCore).fsmOpcode = s.fsmOpcode := rfl
@[simp] theorem State.resetCore_fsmFunct (s : State) : (s.resetCore).fsmFunct = s.fsmFunct := rfl
@[simp] theorem State.resetCore_fsmState (s : State) : (s.resetCore).fsmState = .fetch := rfl
@[simp] theorem State.resetCore_mem (s : State) : (s.resetCore).mem = s.snapshot := rfl
@[simp] theorem State.resetCore_snapshot (s : State) : (s.resetCore).snapshot = s.snapshot := rfl
@[simp] theorem State.resetCore_out (s : State) : (s.resetCore).out = s.out := rfl
@[simp] theorem State.resetCore_fault (s : State) : (s.resetCore).fault = s.fault := rfl

/-! ### `latchResults` -/

@[simp] theorem latchResults_cfg (s : State) (r w : Word) : (latchResults r w s).cfg = s.cfg := rfl
@[simp] theorem latchResults_regs (s : State) (r w : Word) : (latchResults r w s).regs = s.regs := rfl
@[simp] theorem latchResults_pc (s : State) (r w : Word) : (latchResults r w s).pc = s.pc := rfl
@[simp] theorem latchResults_zero (s : State) (r w : Word) : (latchResults r w s).zero = s.zero := rfl
@[simp] theorem latchResults_ir (s : State) (r w : Word) : (latchResults r w s).ir = s.ir := rfl
@[simp] theorem latchResults_operandA (s : State) (r w : Word) : (latchResults r w s).operandA = s.operandA := rfl
@[simp] theorem latchResults_operandB (s : State) (r w : Word) : (latchResults r w s).operandB = s.operandB := rfl
@[simp] theorem latchResults_aluOutput (s : State) (r w : Word) : (latchResults r w s).aluOutput = r := rfl
@[simp] theorem latchResults_data (s : State) (r w : Word) : (latchResults r w s).data = w := rfl
@[simp] theorem latchResults_fsmOpcode (s : State) (r w : Word) : (latchResults r w s).fsmOpcode = s.fsmOpcode := rfl
@[simp] theorem latchResults_fsmFunct (s : State) (r w : Word) : (latchResults r w s).fsmFunct = s.fsmFunct := rfl
@[simp] theorem latchResults_fsmState (s : State) (r w : Word) : (latchResults r w s).fsmState = s.fsmState := rfl
@[simp] theorem latchResults_mem (s : State) (r w : Word) : (latchResults r w s).mem = s.mem := rfl
@[simp] theorem latchResults_snapshot (s : State) (r w : Word) : (latchResults r w s).snapshot = s.snapshot := rfl
@[simp] theorem latchResults_out (s : State) (r w : Word) : (latchResults r w s).out = s.out := rfl
@[simp] theorem latchResults_fault (s : State) (r w : Word) : (latchResults r w s).fault = s.fault := rfl

/-! ### `State.issue` -/

@[simp] theorem State.issue_cfg (s : State) (w : Word) : (s.issue w).cfg = s.cfg := rfl
@[simp] theorem State.issue_regs (s : State) (w : Word) : (s.issue w).regs = s.regs := rfl
@[simp] theorem State.issue_pc (s : State) (w : Word) : (s.issue w).pc = s.pc + 4 := rfl
@[simp] theorem State.issue_zero (s : State) (w : Word) : (s.issue w).zero = s.zero := rfl
@[simp] theorem State.issue_ir (s : State) (w : Word) : (s.issue w).ir = w := rfl
@[simp] theorem State.issue_operandA (s : State) (w : Word) : (s.issue w).operandA = s.readReg (rsField w) := rfl
@[simp] theorem State.issue_operandB (s : State) (w : Word) : (s.issue w).operandB = s.readReg (rtField w) := rfl
@[simp] theorem State.issue_aluOutput (s : State) (w : Word) : (s.issue w).aluOutput = s.aluOutput := rfl
@[simp] theorem State.issue_data (s : State) (w : Word) : (s.issue w).data = s.data := rfl
@[simp] theorem State.issue_fsmOpcode (s : State) (w : Word) : (s.issue w).fsmOpcode = opcodeField w := rfl
@[simp] theorem State.issue_fsmFunct (s : State) (w : Word) : (s.issue w).fsmFunct = functField w := rfl
@[simp] theorem State.issue_fsmState (s : State) (w : Word) : (s.issue w).fsmState = s.fsmState := rfl
@[simp] theorem State.issue_mem (s : State) (w : Word) : (s.issue w).mem = s.mem := rfl
@[simp] theorem State.issue_snapshot (s : State) (w : Word) : (s.issue w).snapshot = s.snapshot := rfl
@[simp] theorem State.issue_out (s : State) (w : Word) : (s.issue w).out = s.out := rfl
@[simp] theorem State.issue_fault (s : State) (w : Word) : (s.issue w).fault = s.fault := rfl

/-! ### `State.idleFlag` -/

@[simp] theorem State.idleFlag_cfg (s : State) : (s.idleFlag).cfg = s.cfg := rfl
@[simp] theorem State.idleFlag_regs (s : State) : (s.idleFlag).regs = s.regs := rfl
@[simp] theorem State.idleFlag_pc (s : State) : (s.idleFlag).pc = s.pc := rfl
@[simp] theorem State.idleFlag_zero (s : State) : (s.idleFlag).zero = zeroOf s.idleResult := rfl
@[simp] theorem State.idleFlag_ir (s : State) : (s.idleFlag).ir = s.ir := rfl
@[simp] theorem State.idleFlag_operandA (s : State) : (s.idleFlag).operandA = s.operandA := rfl
@[simp] theorem State.idleFlag_operandB (s : State) : (s.idleFlag).operandB = s.operandB := rfl
@[simp] theorem State.idleFlag_aluOutput (s : State) : (s.idleFlag).aluOutput = s.aluOutput := rfl
@[simp] theorem State.idleFlag_data (s : State) : (s.idleFlag).data = s.data := rfl
@[simp] theorem State.idleFlag_fsmOpcode (s : State) : (s.idleFlag).fsmOpcode = s.fsmOpcode := rfl
@[simp] theorem State.idleFlag_fsmFunct (s : State) : (s.idleFlag).fsmFunct = s.fsmFunct := rfl
@[simp] theorem State.idleFlag_fsmState (s : State) : (s.idleFlag).fsmState = s.fsmState := rfl
@[simp] theorem State.idleFlag_mem (s : State) : (s.idleFlag).mem = s.mem := rfl
@[simp] theorem State.idleFlag_snapshot (s : State) : (s.idleFlag).snapshot = s.snapshot := rfl
@[simp] theorem State.idleFlag_out (s : State) : (s.idleFlag).out = s.out := rfl
@[simp] theorem State.idleFlag_fault (s : State) : (s.idleFlag).fault = s.fault := rfl

/-! ### `State.idleLatch` -/

@[simp] theorem State.idleLatch_cfg (s : State) : (s.idleLatch).cfg = s.cfg := rfl
@[simp] theorem State.idleLatch_regs (s : State) : (s.idleLatch).regs = s.regs := rfl
@[simp] theorem State.idleLatch_pc (s : State) : (s.idleLatch).pc = s.pc := rfl
@[simp] theorem State.idleLatch_zero (s : State) : (s.idleLatch).zero = s.zero := rfl
@[simp] theorem State.idleLatch_ir (s : State) : (s.idleLatch).ir = s.ir := rfl
@[simp] theorem State.idleLatch_operandA (s : State) : (s.idleLatch).operandA = s.operandA := rfl
@[simp] theorem State.idleLatch_operandB (s : State) : (s.idleLatch).operandB = s.operandB := rfl
@[simp] theorem State.idleLatch_aluOutput (s : State) : (s.idleLatch).aluOutput = s.idleResult := rfl
@[simp] theorem State.idleLatch_data (s : State) : (s.idleLatch).data = instrProbe s.pc s := rfl
@[simp] theorem State.idleLatch_fsmOpcode (s : State) : (s.idleLatch).fsmOpcode = s.fsmOpcode := rfl
@[simp] theorem State.idleLatch_fsmFunct (s : State) : (s.idleLatch).fsmFunct = s.fsmFunct := rfl
@[simp] theorem State.idleLatch_fsmState (s : State) : (s.idleLatch).fsmState = s.fsmState := rfl
@[simp] theorem State.idleLatch_mem (s : State) : (s.idleLatch).mem = s.mem := rfl
@[simp] theorem State.idleLatch_snapshot (s : State) : (s.idleLatch).snapshot = s.snapshot := rfl
@[simp] theorem State.idleLatch_out (s : State) : (s.idleLatch).out = s.out := rfl
@[simp] theorem State.idleLatch_fault (s : State) : (s.idleLatch).fault = s.fault := rfl

/-! ### `State.withOutBefore` -/

@[simp] theorem State.withOutBefore_cfg (s : State) (p : List Word) : (s.withOutBefore p).cfg = s.cfg := rfl
@[simp] theorem State.withOutBefore_regs (s : State) (p : List Word) : (s.withOutBefore p).regs = s.regs := rfl
@[simp] theorem State.withOutBefore_pc (s : State) (p : List Word) : (s.withOutBefore p).pc = s.pc := rfl
@[simp] theorem State.withOutBefore_zero (s : State) (p : List Word) : (s.withOutBefore p).zero = s.zero := rfl
@[simp] theorem State.withOutBefore_ir (s : State) (p : List Word) : (s.withOutBefore p).ir = s.ir := rfl
@[simp] theorem State.withOutBefore_operandA (s : State) (p : List Word) : (s.withOutBefore p).operandA = s.operandA := rfl
@[simp] theorem State.withOutBefore_operandB (s : State) (p : List Word) : (s.withOutBefore p).operandB = s.operandB := rfl
@[simp] theorem State.withOutBefore_aluOutput (s : State) (p : List Word) : (s.withOutBefore p).aluOutput = s.aluOutput := rfl
@[simp] theorem State.withOutBefore_data (s : State) (p : List Word) : (s.withOutBefore p).data = s.data := rfl
@[simp] theorem State.withOutBefore_fsmOpcode (s : State) (p : List Word) : (s.withOutBefore p).fsmOpcode = s.fsmOpcode := rfl
@[simp] theorem State.withOutBefore_fsmFunct (s : State) (p : List Word) : (s.withOutBefore p).fsmFunct = s.fsmFunct := rfl
@[simp] theorem State.withOutBefore_fsmState (s : State) (p : List Word) : (s.withOutBefore p).fsmState = s.fsmState := rfl
@[simp] theorem State.withOutBefore_mem (s : State) (p : List Word) : (s.withOutBefore p).mem = s.mem := rfl
@[simp] theorem State.withOutBefore_snapshot (s : State) (p : List Word) : (s.withOutBefore p).snapshot = s.snapshot := rfl
@[simp] theorem State.withOutBefore_out (s : State) (p : List Word) : (s.withOutBefore p).out = p ++ s.out := rfl
@[simp] theorem State.withOutBefore_fault (s : State) (p : List Word) : (s.withOutBefore p).fault = s.fault := rfl

/-! ### Construction -/

@[simp] theorem State.fresh_cfg (c : Config) : (State.fresh c).cfg = c := rfl
@[simp] theorem State.fresh_regs (c : Config) : (State.fresh c).regs = Vector.replicate 32 0 := rfl
@[simp] theorem State.fresh_pc (c : Config) : (State.fresh c).pc = 0 := rfl
@[simp] theorem State.fresh_zero (c : Config) : (State.fresh c).zero = false := rfl
@[simp] theorem State.fresh_ir (c : Config) : (State.fresh c).ir = 0 := rfl
@[simp] theorem State.fresh_operandA (c : Config) : (State.fresh c).operandA = 0 := rfl
@[simp] theorem State.fresh_operandB (c : Config) : (State.fresh c).operandB = 0 := rfl
@[simp] theorem State.fresh_aluOutput (c : Config) : (State.fresh c).aluOutput = 0 := rfl
@[simp] theorem State.fresh_data (c : Config) : (State.fresh c).data = 0 := rfl
@[simp] theorem State.fresh_fsmOpcode (c : Config) : (State.fresh c).fsmOpcode = 0 := rfl
@[simp] theorem State.fresh_fsmFunct (c : Config) : (State.fresh c).fsmFunct = 0 := rfl
@[simp] theorem State.fresh_fsmState (c : Config) : (State.fresh c).fsmState = .fetch := rfl
@[simp] theorem State.fresh_mem (c : Config) : (State.fresh c).mem = imageFrom 0 c.initMem := rfl
@[simp] theorem State.fresh_snapshot (c : Config) : (State.fresh c).snapshot = imageFrom 0 c.initMem := rfl
@[simp] theorem State.fresh_out (c : Config) : (State.fresh c).out = [] := rfl
@[simp] theorem State.fresh_fault (c : Config) : (State.fresh c).fault = none := rfl

end Sys2Proof.Machine
end

