-- ==== Sys2Proof/Laws/Datapath.lean ====
section
/-! SUPPORT. What one `clock()` cycle does in each control state, said once: later proofs cite these and do not unfold
`clock`. -/

namespace Sys2Proof.Machine

/-! ### The ALU in the settings the control table uses -/

@[simp] theorem alu_fnAdd (e : Enc) (a b : Word) : alu e a b e.fnAdd = some (aluAdd a b) := by
  unfold alu
  rw [if_pos rfl]

/-- Under a valid `ENC` each function code names its own operation (00_scope.md R10). -/
theorem alu_valid {e : Enc} (h : e.Valid) (a b : Word) :
    alu e a b e.fnSub = some (aluSub a b) ∧ alu e a b e.fnAnd = some (aluAnd a b) ∧
    alu e a b e.fnOr = some (aluOr a b) ∧ alu e a b e.fnNor = some (aluNor a b) ∧
    alu e a b e.fnSlt = some (aluSlt a b) := by
  obtain ⟨h1, ⟨h2, h3⟩, ⟨h4, h5, h6⟩, ⟨h7, h8, h9, h10⟩, ⟨h11, h12, h13, h14, h15⟩, -⟩ := h.functs_ne
  simp only [alu, h1, h2, h3, h4, h5, h6, h7, h8, h9, h10, h11, h12, h13, h14, h15, if_true, if_false, and_self]

/-- The ALU has a result exactly for the six codes (41_alu_rtype.md R147). -/
theorem alu_isSome_iff (e : Enc) (a b : Word) (f : BitVec 6) : (alu e a b f).isSome ↔ f ∈ e.functs := by
  unfold alu
  simp only [Enc.functs, List.mem_cons, List.not_mem_nil, or_false]
  split_ifs <;> simp_all

theorem runAlu_some {s : State} {e : Enc} (he : s.cfg.enc = e) {a b v : Word} {f : BitVec 6}
    (h : alu e a b f = some v) : runAlu a b f s = .ok (v, { s with zero := zeroOf v }) := by
  unfold runAlu
  rw [he, h]

theorem runAlu_none {s : State} {e : Enc} (he : s.cfg.enc = e) {a b : Word} {f : BitVec 6}
    (h : alu e a b f = none) : runAlu a b f s = raise (.unknownFunct f) s := by
  unfold runAlu
  rw [he, h]

theorem runAlu_fnAdd {s : State} {e : Enc} (he : s.cfg.enc = e) (a b : Word) :
    runAlu a b e.fnAdd s = .ok (aluAdd a b, { s with zero := zeroOf (aluAdd a b) }) :=
  runAlu_some he (alu_fnAdd e a b)

/-! ### The register file -/

theorem writeReg_zero (during : FsmState) (v : Word) (s : State) :
    writeReg during 0 v s = raise (.reg0Write during) s := rfl

theorem writeReg_ne {i : RegIx} (h : i ≠ 0) (during : FsmState) (v : Word) (s : State) :
    writeReg during i v s = .ok (s.setReg i v) := if_neg h

theorem State.readReg_zero (s : State) : s.readReg 0 = 0 := rfl

/-- A register read after a write: the value written in its register, the old value in every other (R24). -/
theorem State.readReg_setReg (s : State) {i : RegIx} (h : i ≠ 0) (v : Word) (j : RegIx) :
    (s.setReg i v).readReg j = if j = i then v else s.readReg j := by
  unfold State.readReg
  by_cases hj : j = 0
  · subst hj
    rw [if_pos rfl, if_pos rfl, if_neg (Ne.symm h)]
  · rw [if_neg hj, if_neg hj]
    by_cases hji : j = i
    · subst hji
      rw [if_pos rfl]
      exact Vector.getElem_set_self _
    · rw [if_neg hji]
      have : i.toNat ≠ j.toNat := fun hc => hji (BitVec.eq_of_toNat_eq hc.symm)
      exact Vector.getElem_set_ne i.isLt j.isLt this

/-! ### The stream -/

theorem instrRead_probe (addr : Word) (s : State) : instrRead addr false s = .ok (instrProbe addr s) := rfl

theorem instrRead_inRange {addr : Word} {s : State} (h : fetchInRange addr s = true) :
    instrRead addr true s = .ok (codeWord s.cfg.code (u32 addr)) := by
  simp [instrRead, instrProbe, h]

theorem instrRead_pastEnd {addr : Word} {s : State} (h : fetchInRange addr s = false) :
    instrRead addr true s = raise (.fetchOutOfRange addr) s := by
  simp [instrRead, h]

/-! ### `Fetch` (40_datapath.md R101, R117, R118) -/

theorem isPrint_iff (w : Word) : isPrint w = true ↔ opcodeField w = 0 ∧ functField w = 0 := by
  simp only [isPrint, Bool.and_eq_true, decide_eq_true_eq]

/-- The state a `Fetch` cycle leaves when it latches `w`. -/
def fetchCycle (s : State) (w : Word) : State :=
  { s.issue w with
    fsmState := if isPrint w then .fetch else .decode
    out := if isPrint w then s.out ++ [s.readReg (rsField w)] else s.out
    zero := zeroOf (s.pc + 4)
    aluOutput := s.pc + 4
    data := w }

theorem clock_fetch {s : State} (h : s.fsmState = .fetch) (hr : fetchInRange s.pc s = true) :
    clock s = .ok (fetchCycle s (codeWord s.cfg.code (u32 s.pc)),
      { running := (fetchCycle s (codeWord s.cfg.code (u32 s.pc))).running
        printed := if isPrint (codeWord s.cfg.code (u32 s.pc)) then
            some (s.readReg (rsField (codeWord s.cfg.code (u32 s.pc)))) else none }) := by
  have hr' : fetchInRange s.pc { s with fsmState := .decode } = true := hr
  unfold clock advance
  simp only [h, nextState, decision, idleDecision, Except.bind, accessAddr, writeStep, readStep]
  rw [instrRead_inRange hr']
  simp only [latchStep, if_true, aluLeft, aluRight, aluCode]
  by_cases hp : isPrint (codeWord s.cfg.code (u32 s.pc)) = true
  · simp only [hp, if_true]
    rw [runAlu_fnAdd (e := s.cfg.enc) (he := by rfl)]
    simp only [printedWord, hp, fetchCycle, Bool.and_self, if_true]
    rfl
  · simp only [hp, if_false, Bool.false_eq_true]
    rw [runAlu_fnAdd (e := s.cfg.enc) (he := by rfl)]
    simp only [printedWord, hp, fetchCycle, Bool.and_false, if_false, Bool.false_eq_true]
    rfl

theorem clock_fetch_pastEnd {s : State} (h : s.fsmState = .fetch) (hr : fetchInRange s.pc s = false) :
    clock s = raise (.fetchOutOfRange s.pc) { s with fsmState := .decode } := by
  have hr' : fetchInRange s.pc { s with fsmState := .decode } = false := hr
  unfold clock advance
  simp only [h, nextState, decision, idleDecision, Except.bind, accessAddr, writeStep, readStep]
  rw [instrRead_pastEnd hr']
  rfl

/-! ### Where the next-state function raises (40_datapath.md R112; 60_exceptions.md R211) -/

theorem nextState_decode_eq_none_iff (e : Enc) (op : BitVec 6) :
    nextState e .decode op = none ↔ op ∉ 0 :: e.opcodes := by
  simp only [nextState, Enc.opcodes, List.mem_cons, List.not_mem_nil, or_false, not_or]
  split_ifs <;> simp only [true_iff, false_iff] <;> tauto

theorem nextState_addressCompute_eq_none_iff (e : Enc) (op : BitVec 6) :
    nextState e .iTypeAddressCompute op = none ↔ op ≠ e.opLw ∧ op ≠ e.opSw := by
  simp only [nextState]
  split_ifs <;> simp_all

/-! ### The other states -/

/-- The state a cycle leaves that probes the stream at `PC`, runs the ALU with result `r` and moves to `st`. -/
def probeCycle (s : State) (st : FsmState) (r : Word) : State :=
  { s with fsmState := st, zero := zeroOf r, aluOutput := r, data := instrProbe s.pc s }

theorem clock_decode {s : State} (h : s.fsmState = .decode) {st : FsmState}
    (hn : nextState s.cfg.enc .decode s.fsmOpcode = some st) :
    clock s = .ok (probeCycle s st (branchTarget s.pc (imm8Field s.ir)),
      { running := (probeCycle s st (branchTarget s.pc (imm8Field s.ir))).running, printed := none }) := by
  unfold clock advance
  simp only [h, hn, decision, idleDecision, Except.bind, accessAddr, writeStep, readStep, instrRead_probe]
  simp only [latchStep, aluLeft, aluRight, aluCode, Bool.false_eq_true, if_false]
  rw [runAlu_fnAdd (e := s.cfg.enc)] <;> rfl

theorem clock_decode_unknown {s : State} (h : s.fsmState = .decode)
    (hn : nextState s.cfg.enc .decode s.fsmOpcode = none) : clock s = raise (.unknownOpcode s.fsmOpcode) s := by
  unfold clock advance
  simp only [h, hn]
  rfl

theorem clock_rTypeExecute {s : State} (h : s.fsmState = .rTypeExecute) {v : Word}
    (hv : alu s.cfg.enc s.operandA s.operandB s.fsmFunct = some v) :
    clock s = .ok (probeCycle s .rTypeWriteback v,
      { running := (probeCycle s .rTypeWriteback v).running, printed := none }) := by
  unfold clock advance
  simp only [h, nextState, decision, idleDecision, Except.bind, accessAddr, writeStep, readStep, instrRead_probe]
  simp only [latchStep, aluLeft, aluRight, aluCode, Bool.false_eq_true, if_false]
  rw [runAlu_some (e := s.cfg.enc) (h := hv)] <;> rfl

theorem clock_rTypeExecute_unknown {s : State} (h : s.fsmState = .rTypeExecute)
    (hv : alu s.cfg.enc s.operandA s.operandB s.fsmFunct = none) :
    clock s = raise (.unknownFunct s.fsmFunct) { s with fsmState := .rTypeWriteback } := by
  unfold clock advance
  simp only [h, nextState, decision, idleDecision, Except.bind, accessAddr, writeStep, readStep, instrRead_probe]
  simp only [latchStep, aluLeft, aluRight, aluCode, Bool.false_eq_true, if_false]
  rw [runAlu_none (e := s.cfg.enc) (h := hv)] <;> rfl

theorem clock_rTypeWriteback {s : State} (h : s.fsmState = .rTypeWriteback) :
    clock s =
      (writeReg .rTypeWriteback (rdField s.ir) s.aluOutput { s.idleFlag with fsmState := .fetch }).bind fun t =>
        .ok (t.idleLatch, { running := t.idleLatch.running, printed := none }) := by
  unfold clock advance
  simp only [h, nextState, decision, idleDecision, Except.bind, accessAddr, writeStep, readStep, instrRead_probe]
  simp only [latchStep, aluLeft, aluRight, aluCode, Bool.false_eq_true, if_false]
  rw [runAlu_fnAdd (e := s.cfg.enc) (he := by rfl)]
  by_cases hd : rdField s.ir = 0
  · rw [hd, writeReg_zero]
    simp only [writebackStep, pcStep, pcEnable, if_true, Bool.false_and, Bool.or_false, Bool.false_eq_true, if_false, hd,
      writeReg_zero]
    rfl
  · rw [writeReg_ne hd]
    simp only [writebackStep, pcStep, pcEnable, if_true, Bool.false_and, Bool.or_false, Bool.false_eq_true, if_false,
      writeReg_ne hd]
    rfl

theorem clock_jType {s : State} (h : s.fsmState = .jType) :
    clock s = .ok ({ s.idleFlag.idleLatch with fsmState := .fetch, pc := jumpTarget s.pc (addr26Field s.ir) },
      { running := ({ s.idleFlag.idleLatch with
          fsmState := .fetch, pc := jumpTarget s.pc (addr26Field s.ir) } : State).running
        printed := none }) := by
  unfold clock advance
  simp only [h, nextState, decision, idleDecision, Except.bind, accessAddr, writeStep, readStep, instrRead_probe]
  simp only [latchStep, aluLeft, aluRight, aluCode, Bool.false_eq_true, if_false]
  rw [runAlu_fnAdd (e := s.cfg.enc)] <;> rfl

theorem clock_iTypeAddressCompute {s : State} (h : s.fsmState = .iTypeAddressCompute) {st : FsmState}
    (hn : nextState s.cfg.enc .iTypeAddressCompute s.fsmOpcode = some st) :
    clock s = .ok (probeCycle s st (effectiveAddress s.operandA (imm8Field s.ir)),
      { running := (probeCycle s st (effectiveAddress s.operandA (imm8Field s.ir))).running, printed := none }) := by
  unfold clock advance
  simp only [h, hn, decision, idleDecision, Except.bind, accessAddr, writeStep, readStep, instrRead_probe]
  simp only [latchStep, aluLeft, aluRight, aluCode, Bool.false_eq_true, if_false]
  rw [runAlu_fnAdd (e := s.cfg.enc)] <;> rfl

theorem clock_iTypeAddressCompute_unknown {s : State} (h : s.fsmState = .iTypeAddressCompute)
    (hn : nextState s.cfg.enc .iTypeAddressCompute s.fsmOpcode = none) :
    clock s = raise (.unknownOpcode s.fsmOpcode) s := by
  unfold clock advance
  simp only [h, hn]
  rfl

/-- The state an `ITypeMemoryRead` cycle leaves when it reads `v`. -/
def readCycle (s : State) (v : Word) : State :=
  { s.idleFlag with fsmState := .iTypeReadWriteback, aluOutput := s.idleResult, data := v }

theorem clock_iTypeMemoryRead {s : State} (h : s.fsmState = .iTypeMemoryRead) :
    clock s =
      (memRead s.aluOutput { s with fsmState := .iTypeReadWriteback }).bind fun v =>
        .ok (readCycle s v, { running := (readCycle s v).running, printed := none }) := by
  unfold clock advance
  simp only [h, nextState, decision, idleDecision, Except.bind, accessAddr, writeStep, readStep]
  cases memRead s.aluOutput { s with fsmState := .iTypeReadWriteback } with
  | error f => rfl
  | ok v =>
    simp only [latchStep, aluLeft, aluRight, aluCode, Bool.false_eq_true, if_false]
    rw [runAlu_fnAdd (e := s.cfg.enc)] <;> rfl

/-- A data write leaves everything but the memory. -/
theorem memWrite_ok {addr v : Word} {s t : State} (h : memWrite addr v s = .ok t) :
    dataInRange s.cfg.memSize addr = true ∧ t = s.storeWord (byteAddr addr) v := by
  unfold memWrite at h
  split at h
  · exact ⟨‹_›, (Except.ok.inj h).symm⟩
  · cases h

theorem memWrite_cfg {addr v : Word} {s t : State} (h : memWrite addr v s = .ok t) : t.cfg = s.cfg := by
  rw [(memWrite_ok h).2]
  rfl

theorem clock_iTypeMemoryWrite {s : State} (h : s.fsmState = .iTypeMemoryWrite) :
    clock s =
      (memWrite s.aluOutput s.operandB { s with fsmState := .fetch }).bind fun t =>
        (memRead s.aluOutput t).bind fun back =>
          .ok ({ t.idleFlag with aluOutput := t.idleResult, data := back },
            { running := t.running, printed := none }) := by
  unfold clock advance
  simp only [h, nextState, decision, idleDecision, Except.bind, accessAddr, writeStep, readStep]
  cases hw : memWrite s.aluOutput s.operandB { s with fsmState := .fetch } with
  | error f => rfl
  | ok t =>
    simp only
    cases memRead s.aluOutput t with
    | error f => rfl
    | ok v =>
      simp only [latchStep, aluLeft, aluRight, aluCode, Bool.false_eq_true, if_false]
      rw [runAlu_fnAdd (e := s.cfg.enc) (memWrite_cfg hw ▸ rfl)]
      rfl

theorem clock_iTypeReadWriteback {s : State} (h : s.fsmState = .iTypeReadWriteback) :
    clock s =
      (writeReg .iTypeReadWriteback (rtField s.ir) s.data { s.idleFlag with fsmState := .fetch }).bind fun t =>
        .ok (t.idleLatch, { running := t.idleLatch.running, printed := none }) := by
  unfold clock advance
  simp only [h, nextState, decision, idleDecision, Except.bind, accessAddr, writeStep, readStep, instrRead_probe]
  simp only [latchStep, aluLeft, aluRight, aluCode, Bool.false_eq_true, if_false]
  rw [runAlu_fnAdd (e := s.cfg.enc) (he := by rfl)]
  by_cases hd : rtField s.ir = 0
  · rw [hd, writeReg_zero]
    simp only [writebackStep, pcStep, pcEnable, if_true, Bool.false_and, Bool.or_false, Bool.false_eq_true, if_false, hd,
      writeReg_zero]
    rfl
  · rw [writeReg_ne hd]
    simp only [writebackStep, pcStep, pcEnable, if_true, Bool.false_and, Bool.or_false, Bool.false_eq_true, if_false,
      writeReg_ne hd]
    rfl

/-- The state a `Branch` cycle leaves. -/
def branchCycle (s : State) : State :=
  { probeCycle s .fetch (aluSub s.operandA s.operandB) with
    pc := if branchTest (zeroOf (aluSub s.operandA s.operandB)) (decide (s.fsmOpcode = s.cfg.enc.opBne)) then
        s.aluOutput else s.pc }

theorem clock_branch {s : State} (h : s.fsmState = .branch)
    (hs : ∀ a b, alu s.cfg.enc a b s.cfg.enc.fnSub = some (aluSub a b)) :
    clock s = .ok (branchCycle s, { running := (branchCycle s).running, printed := none }) := by
  unfold clock advance
  simp only [h, nextState, decision, idleDecision, Except.bind, accessAddr, writeStep, readStep, instrRead_probe]
  simp only [latchStep, aluLeft, aluRight, aluCode, Bool.false_eq_true, if_false]
  rw [runAlu_some (e := s.cfg.enc) (he := by rfl) (h := hs s.operandA s.operandB)]
  simp only [pcStep, pcEnable, pcValue, writebackStep, Bool.true_and, Bool.or_false, Bool.false_eq_true, if_false]
  unfold branchCycle
  split <;> rfl

end Sys2Proof.Machine
end

