-- ==== Sys2Proof/Laws/Memory.lean ====
section
/-! SUPPORT. The data memory: a read after a write, the canonical form kept by every operation, and equal contents are
equal data. -/

namespace Sys2Proof.Machine

/-! ### One byte -/

@[simp] theorem Memory.read_nil (a : Nat) : Memory.read [] a = 0 := rfl

theorem Memory.read_cons (k : Nat) (b : Byte) (m : Memory) (a : Nat) :
    Memory.read ((k, b) :: m) a = if k = a then b else Memory.read m a := rfl

/-- An address not listed holds 0. -/
theorem Memory.read_eq_zero {m : Memory} {a : Nat} (h : ∀ c ∈ m, c.1 ≠ a) : m.read a = 0 := by
  induction m with
  | nil => rfl
  | cons c m ih =>
    obtain ⟨k, b⟩ := c
    have hk : k ≠ a := h (k, b) (by simp)
    rw [Memory.read_cons, if_neg hk, ih fun c hc => h c (by simp [hc])]

/-- In a canonical memory the cells after the first have larger addresses and the same form. -/
theorem Memory.wf_cons {k : Nat} {b : Byte} {m : Memory} :
    Memory.wf ((k, b) :: m) ↔ (∀ c ∈ m, k < c.1) ∧ b ≠ 0 ∧ Memory.wf m := by
  simp only [Memory.wf, List.pairwise_cons, List.forall_mem_cons]
  tauto

theorem Memory.wf_nil : Memory.wf [] := by simp [Memory.wf]

theorem Memory.read_eq_zero_of_lt {m : Memory} {a : Nat} (h : ∀ c ∈ m, a < c.1) : m.read a = 0 :=
  Memory.read_eq_zero fun c hc => (h c hc).ne'

/-- A read after a write: the byte written at its address, the old byte everywhere else. -/
theorem Memory.read_write {m : Memory} (hm : m.wf) (a : Nat) (v : Byte) (b : Nat) :
    (m.write a v).read b = if b = a then v else m.read b := by
  induction m with
  | nil =>
    unfold Memory.write
    split <;> rename_i hv
    · simp [hv]
    · rw [Memory.read_cons]
      exact if_congr eq_comm rfl rfl
  | cons c m ih =>
    obtain ⟨k, x⟩ := c
    obtain ⟨hlt, -, hwf⟩ := Memory.wf_cons.mp hm
    have ih := ih hwf
    unfold Memory.write
    by_cases h1 : a < k
    · have h0 : Memory.read m a = 0 := Memory.read_eq_zero_of_lt fun c hc => h1.trans (hlt c hc)
      rw [if_pos h1]
      split <;> rename_i hv
      · by_cases hb : b = a
        · rw [if_pos hb, hb, Memory.read_cons, if_neg (Nat.ne_of_gt h1), h0, hv]
        · rw [if_neg hb]
      · rw [Memory.read_cons]
        exact if_congr eq_comm rfl rfl
    · rw [if_neg h1]
      by_cases h2 : a = k
      · rw [if_pos h2, Memory.read_cons]
        by_cases hb : b = a
        · have h0 : Memory.read m b = 0 := Memory.read_eq_zero_of_lt (by rw [hb, h2]; exact hlt)
          rw [if_pos hb]
          split <;> rename_i hv
          · rw [h0, hv]
          · rw [Memory.read_cons, if_pos hb.symm]
        · rw [if_neg hb, if_neg fun h => hb (h2.trans h).symm]
          split
          · rfl
          · rw [Memory.read_cons, if_neg (Ne.symm hb)]
      · rw [if_neg h2, Memory.read_cons, Memory.read_cons, ih]
        by_cases hb : k = b
        · rw [if_pos hb, if_pos hb, if_neg fun h => h2 (hb.trans h).symm]
        · rw [if_neg hb, if_neg hb]

/-- What holds of every cell listed and of every cell at `a` holds of every cell listed after a write at `a`. -/
theorem Memory.forall_mem_write {P : Nat → Prop} {m : Memory} {a : Nat} (hm : ∀ c ∈ m, P c.1) (ha : P a) (v : Byte) :
    ∀ c ∈ m.write a v, P c.1 := by
  induction m with
  | nil =>
    unfold Memory.write
    split
    · exact hm
    · exact List.forall_mem_cons.mpr ⟨ha, hm⟩
  | cons c m ih =>
    obtain ⟨j, x⟩ := c
    have hm' := List.forall_mem_cons.mp hm
    unfold Memory.write
    split
    · split
      · exact hm
      · exact List.forall_mem_cons.mpr ⟨ha, hm⟩
    · split
      · split
        · exact hm'.2
        · exact List.forall_mem_cons.mpr ⟨ha, hm'.2⟩
      · exact List.forall_mem_cons.mpr ⟨hm'.1, ih hm'.2⟩

/-- A write keeps the canonical form. -/
theorem Memory.wf_write {m : Memory} (hm : m.wf) (a : Nat) (v : Byte) : (m.write a v).wf := by
  induction m with
  | nil =>
    unfold Memory.write
    split
    · exact Memory.wf_nil
    · exact Memory.wf_cons.mpr ⟨by simp, ‹_›, Memory.wf_nil⟩
  | cons c m ih =>
    obtain ⟨k, x⟩ := c
    obtain ⟨hlt, hx, hwf⟩ := Memory.wf_cons.mp hm
    unfold Memory.write
    split
    · split
      · exact hm
      · rename_i hak hv
        exact Memory.wf_cons.mpr
          ⟨List.forall_mem_cons.mpr ⟨hak, fun c hc => Nat.lt_trans hak (hlt c hc)⟩, hv, hm⟩
    · split
      · split
        · exact hwf
        · rename_i hak hv
          exact Memory.wf_cons.mpr ⟨by rw [hak]; exact hlt, hv, hwf⟩
      · exact Memory.wf_cons.mpr ⟨Memory.forall_mem_write (P := (k < ·)) hlt (by omega) v, hx, ih hwf⟩

/-- A write below `n` lists only addresses below `n`. -/
theorem Memory.below_write {n : Nat} {m : Memory} (hm : m.below n) {a : Nat} (ha : a < n) (v : Byte) :
    (m.write a v).below n :=
  Memory.forall_mem_write (P := (· < n)) hm ha v

/-- Two canonical memories that read alike everywhere are the same data. -/
theorem Memory.ext_of_read {m n : Memory} (hm : m.wf) (hn : n.wf) (h : ∀ a, m.read a = n.read a) : m = n := by
  induction m generalizing n with
  | nil =>
    cases n with
    | nil => rfl
    | cons c n =>
      obtain ⟨k, x⟩ := c
      have := h k
      simp only [Memory.read_nil, Memory.read_cons, if_pos] at this
      exact absurd this.symm (Memory.wf_cons.mp hn).2.1
  | cons c m ih =>
    obtain ⟨k, x⟩ := c
    obtain ⟨hlt, hx, hwf⟩ := Memory.wf_cons.mp hm
    cases n with
    | nil =>
      have := h k
      simp only [Memory.read_nil, Memory.read_cons, if_pos] at this
      exact absurd this hx
    | cons d n =>
      obtain ⟨j, y⟩ := d
      obtain ⟨hlt', hy, hwf'⟩ := Memory.wf_cons.mp hn
      have hkj : k = j := by
        rcases Nat.lt_trichotomy k j with hl | he | hl
        · have h1 := h k
          rw [Memory.read_cons, if_pos rfl, Memory.read_cons, if_neg (Nat.ne_of_gt hl),
            Memory.read_eq_zero_of_lt fun c hc => hl.trans (hlt' c hc)] at h1
          exact absurd h1 hx
        · exact he
        · have h1 := h j
          rw [Memory.read_cons, if_neg (Nat.ne_of_gt hl), Memory.read_cons, if_pos rfl,
            Memory.read_eq_zero_of_lt fun c hc => hl.trans (hlt c hc)] at h1
          exact absurd h1.symm hy
      subst hkj
      have hxy : x = y := by
        have h1 := h k
        simpa only [Memory.read_cons, if_pos] using h1
      subst hxy
      congr 1
      refine ih hwf hwf' fun a => ?_
      by_cases ha : k = a
      · subst ha
        rw [Memory.read_eq_zero_of_lt hlt, Memory.read_eq_zero_of_lt hlt']
      · have h1 := h a
        rwa [Memory.read_cons, Memory.read_cons, if_neg ha, if_neg ha] at h1

/-! ### Words -/

theorem Memory.wf_writeWord {m : Memory} (hm : m.wf) (a : Nat) (v : Word) : (m.writeWord a v).wf :=
  Memory.wf_write (Memory.wf_write (Memory.wf_write (Memory.wf_write hm _ _) _ _) _ _) _ _

theorem Memory.below_writeWord {n : Nat} {m : Memory} (hm : m.below n) {a : Nat} (ha : a + 4 ≤ n) (v : Word) :
    (m.writeWord a v).below n :=
  Memory.below_write
    (Memory.below_write (Memory.below_write (Memory.below_write hm (by omega) _) (by omega) _) (by omega) _) (by omega) _

/-- Reading a byte after a word is stored: the word's byte inside `[a, a + 4)`, the old byte outside. -/
theorem Memory.read_writeWord {m : Memory} (hm : m.wf) (a : Nat) (v : Word) (b : Nat) :
    (m.writeWord a v).read b =
      if b = a then v.extractLsb' 24 8
      else if b = a + 1 then v.extractLsb' 16 8
      else if b = a + 2 then v.extractLsb' 8 8
      else if b = a + 3 then v.extractLsb' 0 8
      else m.read b := by
  have h0 := Memory.wf_write hm a (v.extractLsb' 24 8)
  have h1 := Memory.wf_write h0 (a + 1) (v.extractLsb' 16 8)
  have h2 := Memory.wf_write h1 (a + 2) (v.extractLsb' 8 8)
  unfold Memory.writeWord
  rw [Memory.read_write h2, Memory.read_write h1, Memory.read_write h0, Memory.read_write hm]
  split_ifs <;> first | rfl | omega

/-- A word read where it was just stored is the word. -/
theorem Memory.readWord_writeWord {m : Memory} (hm : m.wf) (a : Nat) (v : Word) :
    (m.writeWord a v).readWord a = v := by
  unfold Memory.readWord
  simp only [Memory.read_writeWord hm]
  simpa using wordOfBytes_bytes v

/-! ### The construction image -/

theorem imageFrom_ge {a : Nat} {bs : List Byte} : ∀ c ∈ imageFrom a bs, a ≤ c.1 := by
  induction bs generalizing a with
  | nil => simp [imageFrom]
  | cons b bs ih =>
    intro c hc
    unfold imageFrom at hc
    split at hc
    · exact Nat.le_of_succ_le (ih c hc)
    · rcases List.mem_cons.mp hc with rfl | hc
      · exact Nat.le_refl a
      · exact Nat.le_of_succ_le (ih c hc)

theorem wf_imageFrom (a : Nat) (bs : List Byte) : Memory.wf (imageFrom a bs) := by
  induction bs generalizing a with
  | nil => exact Memory.wf_nil
  | cons b bs ih =>
    unfold imageFrom
    split
    · exact ih _
    · exact Memory.wf_cons.mpr ⟨imageFrom_ge, ‹_›, ih _⟩

theorem below_imageFrom {n a : Nat} {bs : List Byte} (h : a + bs.length ≤ n) : Memory.below n (imageFrom a bs) := by
  induction bs generalizing a with
  | nil => simp [imageFrom, Memory.below]
  | cons b bs ih =>
    simp only [List.length_cons] at h
    have ih := ih (a := a + 1) (by omega)
    unfold imageFrom
    split
    · exact ih
    · exact List.forall_mem_cons.mpr ⟨by omega, ih⟩

/-- The image loaded at `a` reads as its bytes, and as 0 elsewhere. -/
theorem read_imageFrom (a : Nat) (bs : List Byte) (b : Nat) :
    (imageFrom a bs).read b = if a ≤ b then bs.getD (b - a) 0 else 0 := by
  induction bs generalizing a with
  | nil => simp [imageFrom]
  | cons x bs ih =>
    unfold imageFrom
    split
    · rename_i hx
      rw [ih]
      rcases Nat.lt_trichotomy a b with hl | he | hl
      · obtain ⟨d, rfl⟩ := Nat.exists_eq_add_of_lt hl
        simp [show a + d + 1 - (a + 1) = d by omega, show a + d + 1 - a = d + 1 by omega, show a ≤ a + d + 1 by omega]
      · subst he
        simp [hx]
      · simp [show ¬a + 1 ≤ b by omega, show ¬a ≤ b by omega]
    · rw [Memory.read_cons, ih]
      rcases Nat.lt_trichotomy a b with hl | he | hl
      · obtain ⟨d, rfl⟩ := Nat.exists_eq_add_of_lt hl
        simp [show a + d + 1 - (a + 1) = d by omega, show a + d + 1 - a = d + 1 by omega, show a ≤ a + d + 1 by omega,
          show a ≠ a + d + 1 by omega]
      · subst he
        simp
      · simp [show ¬a + 1 ≤ b by omega, show ¬a ≤ b by omega, show a ≠ b by omega]

/-! ### Addresses in range -/

/-- What the range check says of the byte address (20_memory.md R54). -/
theorem byteAddr_of_dataInRange {n : Nat} {addr : Word} (h : dataInRange n addr = true) :
    (byteAddr addr : Int) = s32 addr ∧ byteAddr addr + 4 ≤ n := by
  simp only [dataInRange, Bool.and_eq_true, decide_eq_true_eq] at h
  unfold byteAddr
  omega

/-- In range, the byte address is the unsigned reading too. -/
theorem byteAddr_eq_toNat {n : Nat} {addr : Word} (h : dataInRange n addr = true) : byteAddr addr = addr.toNat := by
  have h1 := byteAddr_of_dataInRange h
  have h2 := BitVec.toInt_eq_toNat_cond addr
  have h3 := addr.isLt
  simp only [s32] at h1
  split at h2 <;> omega

end Sys2Proof.Machine
end

