-- ==== Sys2Proof/Laws/Exec.lean ====
section
/-! SUPPORT. What each shared effect of the meanings can do, said once. -/

namespace Sys2Proof.Machine

/-- Two advances of the PC: what the idle ALU of a last cycle computes. -/
theorem add_four_add_four (a : Word) : a + 4 + 4 = a + 8 := by
  rw [BitVec.add_assoc]
  rfl

/-! ### R-type (41_alu_rtype.md section 2) -/

/-- The state the last cycle of an R-type operation reaches before its write-back. -/
def rTypeReady (w : Word) (result : Word) (s : State) : State :=
  { (s.issue w).idleFlag with
    fsmState := .fetch, aluOutput := result, data := instrProbe (s.issue w).pc (s.issue w) }

/-- With `rd` not 0 the operation completes. -/
theorem rTypeEffect_ok {rd : RegIx} (h : rd ≠ 0) (w result : Word) (s : State) :
    rTypeEffect w rd result s = .ok ((rTypeReady w result s).setReg rd result).idleLatch := by
  change (writeReg .rTypeWriteback rd result (rTypeReady w result s)).bind (fun t => .ok t.idleLatch) = _
  rw [writeReg_ne h]
  rfl

/-- With `rd` 0 it raises, and nothing is written. -/
theorem rTypeEffect_zero (w result : Word) (s : State) :
    rTypeEffect w 0 result s = raise (.reg0Write .rTypeWriteback) (rTypeReady w result s) := rfl

/-- An R-type operation that completes did so with `rd` not 0, in that state. -/
theorem rTypeEffect_cases {w result : Word} {rd : RegIx} {s t : State} (h : rTypeEffect w rd result s = .ok t) :
    rd ≠ 0 ∧ t = ((rTypeReady w result s).setReg rd result).idleLatch := by
  by_cases hd : rd = 0
  · subst hd
    cases h
  · rw [rTypeEffect_ok hd] at h
    exact ⟨hd, (Except.ok.inj h).symm⟩

/-! ### LW and SW (42_load_store.md) -/

theorem memRead_inRange {addr : Word} {s : State} (h : dataInRange s.cfg.memSize addr = true) :
    memRead addr s = .ok (s.mem.readWord (byteAddr addr)) := if_pos h

theorem memRead_outOfRange {addr : Word} {s : State} (h : dataInRange s.cfg.memSize addr = false) :
    memRead addr s = raise (.memOutOfRange (s32 addr)) s := by
  unfold memRead
  rw [h]
  rfl

theorem memWrite_inRange {addr : Word} {s : State} (h : dataInRange s.cfg.memSize addr = true) (v : Word) :
    memWrite addr v s = .ok (s.storeWord (byteAddr addr) v) := if_pos h

theorem memWrite_outOfRange {addr : Word} {s : State} (h : dataInRange s.cfg.memSize addr = false) (v : Word) :
    memWrite addr v s = raise (.memOutOfRange (s32 addr)) s := by
  unfold memWrite
  rw [h]
  rfl

@[simp] theorem addressEffect_cfg (w ea : Word) (s : State) : (addressEffect w ea s).cfg = s.cfg := rfl
@[simp] theorem addressEffect_regs (w ea : Word) (s : State) : (addressEffect w ea s).regs = s.regs := rfl
@[simp] theorem addressEffect_pc (w ea : Word) (s : State) : (addressEffect w ea s).pc = s.pc + 4 := rfl
@[simp] theorem addressEffect_mem (w ea : Word) (s : State) : (addressEffect w ea s).mem = s.mem := rfl
@[simp] theorem addressEffect_out (w ea : Word) (s : State) : (addressEffect w ea s).out = s.out := rfl
@[simp] theorem addressEffect_fault (w ea : Word) (s : State) : (addressEffect w ea s).fault = s.fault := rfl

/-- The state the last cycle of a load reaches before its write-back, `v` being the word read. -/
def loadReady (v : Word) (s3 : State) : State :=
  { s3.idleFlag with fsmState := .fetch, aluOutput := s3.idleResult, data := v }

/-- A load in range whose destination is not register 0 completes. -/
theorem loadEffect_ok {rt : RegIx} (h : rt ≠ 0) {ea : Word} {s3 : State}
    (hr : dataInRange s3.cfg.memSize ea = true) :
    loadEffect rt ea s3 =
      .ok ((loadReady (s3.mem.readWord (byteAddr ea)) s3).setReg rt (s3.mem.readWord (byteAddr ea))).idleLatch := by
  unfold loadEffect
  rw [memRead_inRange (s := { s3 with fsmState := .iTypeReadWriteback }) hr]
  change (writeReg _ rt _ (loadReady (s3.mem.readWord (byteAddr ea)) s3)).bind (fun t => .ok t.idleLatch) = _
  rw [writeReg_ne h]
  rfl

/-- A load in range into register 0 raises after the read. -/
theorem loadEffect_zero {ea : Word} {s3 : State} (hr : dataInRange s3.cfg.memSize ea = true) :
    loadEffect 0 ea s3 =
      raise (.reg0Write .iTypeReadWriteback) (loadReady (s3.mem.readWord (byteAddr ea)) s3) := by
  unfold loadEffect
  rw [memRead_inRange (s := { s3 with fsmState := .iTypeReadWriteback }) hr]
  rfl

/-- A load out of range raises before its write-back is looked at. -/
theorem loadEffect_outOfRange {rt : RegIx} {ea : Word} {s3 : State} (hr : dataInRange s3.cfg.memSize ea = false) :
    loadEffect rt ea s3 = raise (.memOutOfRange (s32 ea)) { s3 with fsmState := .iTypeReadWriteback } := by
  unfold loadEffect
  rw [memRead_outOfRange (s := { s3 with fsmState := .iTypeReadWriteback }) hr]
  rfl

/-- The state a store leaves, `s3` being the state after its third cycle and `back` the word step 4 reads back. -/
def storeDone (v : Word) (a : Nat) (back : Word) (s3 : State) : State :=
  { (s3.storeWord a v).idleFlag with fsmState := .fetch, aluOutput := s3.idleResult, data := back }

/-- A store in range completes. -/
theorem storeEffect_ok {v ea : Word} {s3 : State} (hr : dataInRange s3.cfg.memSize ea = true) :
    storeEffect v ea s3 =
      .ok (storeDone v (byteAddr ea) ((s3.mem.writeWord (byteAddr ea) v).readWord (byteAddr ea)) s3) := by
  unfold storeEffect
  rw [memWrite_inRange (s := { s3 with fsmState := .fetch }) hr]
  simp only [Except.bind]
  rw [memRead_inRange (s := State.storeWord { s3 with fsmState := .fetch } (byteAddr ea) v) hr]
  rfl

/-- A store out of range raises before any byte is written. -/
theorem storeEffect_outOfRange {v ea : Word} {s3 : State} (hr : dataInRange s3.cfg.memSize ea = false) :
    storeEffect v ea s3 = raise (.memOutOfRange (s32 ea)) { s3 with fsmState := .fetch } := by
  unfold storeEffect
  rw [memWrite_outOfRange (s := { s3 with fsmState := .fetch }) hr]
  rfl

/-! ### Raising -/

/-- A raise never ends in a state. -/
theorem raise_ne_ok {α : Type} (r : FaultRecord) (s : State) (a : α) : raise r s ≠ .ok a := by
  intro h
  cases h

@[simp] theorem outcome_ok (s : State) : outcome (.ok s) = .next s := rfl

@[simp] theorem outcome_error (f : Fault) : outcome (.error f) = .fault f := rfl

theorem outcome_raise (r : FaultRecord) (s : State) :
    outcome (raise r s) = .fault (r.stop { s with fault := some r }) := rfl

/-- The stop a record stands for has that record. -/
@[simp] theorem FaultRecord.stop_record (r : FaultRecord) (s : State) : (r.stop s).record = r := by
  cases r <;> rfl

theorem outcome_next_iff {x : Except Fault State} {t : State} : outcome x = .next t ↔ x = .ok t := by
  cases x with
  | ok s => exact ⟨fun h => congrArg Except.ok (Host.Outcome.next.inj h), fun h => congrArg Host.Outcome.next (Except.ok.inj h)⟩
  | error f => exact ⟨fun h => (nomatch h), fun h => (nomatch h)⟩

end Sys2Proof.Machine
end

