-- ==== Sys2Proof/Laws/Cycle.lean ====
section
/-! SUPPORT. The inversion lemmas of `clock`: everything a cycle that completes, or raises, can have been. -/

namespace Sys2Proof.Machine

/-- The state a write-back cycle leaves, `v` written to register `i`. -/
def writebackCycle (s : State) (i : RegIx) (v : Word) : State :=
  (State.setReg { s.idleFlag with fsmState := .fetch } i v).idleLatch

/-- The state a `JType` cycle leaves. -/
def jumpCycle (s : State) : State :=
  { s.idleFlag.idleLatch with fsmState := .fetch, pc := jumpTarget s.pc (addr26Field s.ir) }

/-- What a cycle that completes did, by the control state it ran in. -/
theorem clock_ok_cases {s t : State} {p : ClkPorts} (hv : s.cfg.enc.Valid) (h : clock s = .ok (t, p)) :
    p.running = t.running ∧
    match s.fsmState with
    | .fetch =>
      fetchInRange s.pc s = true ∧ t = fetchCycle s (codeWord s.cfg.code (u32 s.pc)) ∧
        p.printed = if isPrint (codeWord s.cfg.code (u32 s.pc)) then
          some (s.readReg (rsField (codeWord s.cfg.code (u32 s.pc)))) else none
    | .decode =>
      (∃ st, nextState s.cfg.enc .decode s.fsmOpcode = some st ∧
        t = probeCycle s st (branchTarget s.pc (imm8Field s.ir))) ∧ p.printed = none
    | .rTypeExecute =>
      (∃ v, alu s.cfg.enc s.operandA s.operandB s.fsmFunct = some v ∧ t = probeCycle s .rTypeWriteback v) ∧
        p.printed = none
    | .rTypeWriteback =>
      rdField s.ir ≠ 0 ∧ t = writebackCycle s (rdField s.ir) s.aluOutput ∧ p.printed = none
    | .jType => t = jumpCycle s ∧ p.printed = none
    | .iTypeAddressCompute =>
      (∃ st, nextState s.cfg.enc .iTypeAddressCompute s.fsmOpcode = some st ∧
        t = probeCycle s st (effectiveAddress s.operandA (imm8Field s.ir))) ∧ p.printed = none
    | .iTypeMemoryRead =>
      dataInRange s.cfg.memSize s.aluOutput = true ∧ t = readCycle s (s.mem.readWord (byteAddr s.aluOutput)) ∧
        p.printed = none
    | .iTypeMemoryWrite =>
      dataInRange s.cfg.memSize s.aluOutput = true ∧
        t = storeDone s.operandB (byteAddr s.aluOutput)
          ((s.mem.writeWord (byteAddr s.aluOutput) s.operandB).readWord (byteAddr s.aluOutput)) s ∧
        p.printed = none
    | .iTypeReadWriteback =>
      rtField s.ir ≠ 0 ∧ t = writebackCycle s (rtField s.ir) s.data ∧ p.printed = none
    | .branch => t = branchCycle s ∧ p.printed = none := by
  cases hs : s.fsmState with
  | fetch =>
    cases hr : fetchInRange s.pc s with
    | true => rw [clock_fetch hs hr] at h; cases h; exact ⟨rfl, rfl, rfl, rfl⟩
    | false => rw [clock_fetch_pastEnd hs hr] at h; cases h
  | decode =>
    cases hn : nextState s.cfg.enc .decode s.fsmOpcode with
    | some st => rw [clock_decode hs hn] at h; cases h; exact ⟨rfl, ⟨st, rfl, rfl⟩, rfl⟩
    | none => rw [clock_decode_unknown hs hn] at h; cases h
  | rTypeExecute =>
    cases ha : alu s.cfg.enc s.operandA s.operandB s.fsmFunct with
    | some v => rw [clock_rTypeExecute hs ha] at h; cases h; exact ⟨rfl, ⟨v, rfl, rfl⟩, rfl⟩
    | none => rw [clock_rTypeExecute_unknown hs ha] at h; cases h
  | rTypeWriteback =>
    rw [clock_rTypeWriteback hs] at h
    by_cases hd : rdField s.ir = 0
    · rw [hd] at h; cases h
    · rw [writeReg_ne hd] at h; cases h; exact ⟨rfl, hd, rfl, rfl⟩
  | jType => rw [clock_jType hs] at h; cases h; exact ⟨rfl, rfl, rfl⟩
  | iTypeAddressCompute =>
    cases hn : nextState s.cfg.enc .iTypeAddressCompute s.fsmOpcode with
    | some st => rw [clock_iTypeAddressCompute hs hn] at h; cases h; exact ⟨rfl, ⟨st, rfl, rfl⟩, rfl⟩
    | none => rw [clock_iTypeAddressCompute_unknown hs hn] at h; cases h
  | iTypeMemoryRead =>
    rw [clock_iTypeMemoryRead hs] at h
    cases hr : dataInRange s.cfg.memSize s.aluOutput with
    | true =>
      rw [memRead_inRange (s := { s with fsmState := .iTypeReadWriteback }) hr] at h
      cases h; exact ⟨rfl, rfl, rfl, rfl⟩
    | false => rw [memRead_outOfRange (s := { s with fsmState := .iTypeReadWriteback }) hr] at h; cases h
  | iTypeMemoryWrite =>
    rw [clock_iTypeMemoryWrite hs] at h
    cases hr : dataInRange s.cfg.memSize s.aluOutput with
    | true =>
      rw [memWrite_inRange (s := { s with fsmState := .fetch }) hr] at h
      simp only [Except.bind] at h
      rw [memRead_inRange (s := State.storeWord { s with fsmState := .fetch } (byteAddr s.aluOutput) s.operandB) hr] at h
      cases h; exact ⟨rfl, rfl, rfl, rfl⟩
    | false => rw [memWrite_outOfRange (s := { s with fsmState := .fetch }) hr] at h; cases h
  | iTypeReadWriteback =>
    rw [clock_iTypeReadWriteback hs] at h
    by_cases hd : rtField s.ir = 0
    · rw [hd] at h; cases h
    · rw [writeReg_ne hd] at h; cases h; exact ⟨rfl, hd, rfl, rfl⟩
  | branch =>
    rw [clock_branch hs fun a b => (alu_valid hv a b).1] at h
    cases h; exact ⟨rfl, rfl, rfl⟩

/-- What a cycle that raises did, by the control state it ran in: the record and the state it stopped in but for the record. -/
theorem clock_error_cases {s : State} {f : Fault} (hv : s.cfg.enc.Valid) (h : clock s = .error f) :
    ∃ (r : FaultRecord) (u : State), f = r.stop { u with fault := some r } ∧
    match s.fsmState with
    | .fetch =>
      fetchInRange s.pc s = false ∧ r = .fetchOutOfRange s.pc ∧ u = { s with fsmState := .decode }
    | .decode =>
      nextState s.cfg.enc .decode s.fsmOpcode = none ∧ r = .unknownOpcode s.fsmOpcode ∧ u = s
    | .rTypeExecute =>
      alu s.cfg.enc s.operandA s.operandB s.fsmFunct = none ∧ r = .unknownFunct s.fsmFunct ∧
        u = { s with fsmState := .rTypeWriteback }
    | .rTypeWriteback =>
      rdField s.ir = 0 ∧ r = .reg0Write .rTypeWriteback ∧ u = { s.idleFlag with fsmState := .fetch }
    | .jType => False
    | .iTypeAddressCompute =>
      nextState s.cfg.enc .iTypeAddressCompute s.fsmOpcode = none ∧ r = .unknownOpcode s.fsmOpcode ∧ u = s
    | .iTypeMemoryRead =>
      dataInRange s.cfg.memSize s.aluOutput = false ∧ r = .memOutOfRange (s32 s.aluOutput) ∧
        u = { s with fsmState := .iTypeReadWriteback }
    | .iTypeMemoryWrite =>
      dataInRange s.cfg.memSize s.aluOutput = false ∧ r = .memOutOfRange (s32 s.aluOutput) ∧
        u = { s with fsmState := .fetch }
    | .iTypeReadWriteback =>
      rtField s.ir = 0 ∧ r = .reg0Write .iTypeReadWriteback ∧ u = { s.idleFlag with fsmState := .fetch }
    | .branch => False := by
  cases hs : s.fsmState with
  | fetch =>
    cases hr : fetchInRange s.pc s with
    | true => rw [clock_fetch hs hr] at h; cases h
    | false => rw [clock_fetch_pastEnd hs hr] at h; cases h; exact ⟨_, _, rfl, rfl, rfl, rfl⟩
  | decode =>
    cases hn : nextState s.cfg.enc .decode s.fsmOpcode with
    | some st => rw [clock_decode hs hn] at h; cases h
    | none => rw [clock_decode_unknown hs hn] at h; cases h; exact ⟨_, _, rfl, rfl, rfl, rfl⟩
  | rTypeExecute =>
    cases ha : alu s.cfg.enc s.operandA s.operandB s.fsmFunct with
    | some v => rw [clock_rTypeExecute hs ha] at h; cases h
    | none => rw [clock_rTypeExecute_unknown hs ha] at h; cases h; exact ⟨_, _, rfl, rfl, rfl, rfl⟩
  | rTypeWriteback =>
    rw [clock_rTypeWriteback hs] at h
    by_cases hd : rdField s.ir = 0
    · rw [hd] at h; cases h; exact ⟨_, _, rfl, hd, rfl, rfl⟩
    · rw [writeReg_ne hd] at h; cases h
  | jType => rw [clock_jType hs] at h; cases h
  | iTypeAddressCompute =>
    cases hn : nextState s.cfg.enc .iTypeAddressCompute s.fsmOpcode with
    | some st => rw [clock_iTypeAddressCompute hs hn] at h; cases h
    | none => rw [clock_iTypeAddressCompute_unknown hs hn] at h; cases h; exact ⟨_, _, rfl, rfl, rfl, rfl⟩
  | iTypeMemoryRead =>
    rw [clock_iTypeMemoryRead hs] at h
    cases hr : dataInRange s.cfg.memSize s.aluOutput with
    | true => rw [memRead_inRange (s := { s with fsmState := .iTypeReadWriteback }) hr] at h; cases h
    | false =>
      rw [memRead_outOfRange (s := { s with fsmState := .iTypeReadWriteback }) hr] at h
      cases h; exact ⟨_, _, rfl, rfl, rfl, rfl⟩
  | iTypeMemoryWrite =>
    rw [clock_iTypeMemoryWrite hs] at h
    cases hr : dataInRange s.cfg.memSize s.aluOutput with
    | true =>
      rw [memWrite_inRange (s := { s with fsmState := .fetch }) hr] at h
      simp only [Except.bind] at h
      rw [memRead_inRange (s := State.storeWord { s with fsmState := .fetch } (byteAddr s.aluOutput) s.operandB) hr] at h
      cases h
    | false =>
      rw [memWrite_outOfRange (s := { s with fsmState := .fetch }) hr] at h
      cases h; exact ⟨_, _, rfl, rfl, rfl, rfl⟩
  | iTypeReadWriteback =>
    rw [clock_iTypeReadWriteback hs] at h
    by_cases hd : rtField s.ir = 0
    · rw [hd] at h; cases h; exact ⟨_, _, rfl, hd, rfl, rfl⟩
    · rw [writeReg_ne hd] at h; cases h
  | branch =>
    rw [clock_branch hs fun a b => (alu_valid hv a b).1] at h
    cases h

/-- No cycle changes the configuration (00_scope.md R9). -/
theorem clock_cfg {s t : State} {p : ClkPorts} (hv : s.cfg.enc.Valid) (h : clock s = .ok (t, p)) : t.cfg = s.cfg := by
  have hr := (clock_ok_cases hv h).2
  cases hs : s.fsmState <;> simp only [hs] at hr
  case fetch => obtain ⟨-, rfl, -⟩ := hr; rfl
  case decode => obtain ⟨⟨_, -, rfl⟩, -⟩ := hr; rfl
  case rTypeExecute => obtain ⟨⟨_, -, rfl⟩, -⟩ := hr; rfl
  case rTypeWriteback => obtain ⟨-, rfl, -⟩ := hr; rfl
  case jType => obtain ⟨rfl, -⟩ := hr; rfl
  case iTypeAddressCompute => obtain ⟨⟨_, -, rfl⟩, -⟩ := hr; rfl
  case iTypeMemoryRead => obtain ⟨-, rfl, -⟩ := hr; rfl
  case iTypeMemoryWrite => obtain ⟨-, rfl, -⟩ := hr; rfl
  case iTypeReadWriteback => obtain ⟨-, rfl, -⟩ := hr; rfl
  case branch => obtain ⟨rfl, -⟩ := hr; rfl

/-! ### Several cycles

The cycles an instruction takes, cut before the last: from there one `clock_…` lemma says how the instruction ends. -/

/-- `k` cycles bring `s` to `u`, and none of the states they pass through, `u` included, is in `Fetch`. -/
inductive Leads : Nat → State → State → Prop where
  | refl (s : State) : Leads 0 s s
  | head {k : Nat} {s t u : State} {p : ClkPorts} :
      clock s = .ok (t, p) → t.fsmState ≠ .fetch → Leads k t u → Leads (k + 1) s u

theorem Leads.tail {k : Nat} {s t u : State} {p : ClkPorts} (h : Leads k s t) (hc : clock t = .ok (u, p))
    (hu : u.fsmState ≠ .fetch) : Leads (k + 1) s u := by
  induction h with
  | refl => exact .head hc hu (.refl _)
  | head h1 h2 _ ih => exact .head h1 h2 (ih hc)

theorem clocks_succ_ok {n : Nat} {s t : State} {p : ClkPorts} (h : clock s = .ok (t, p)) :
    clocks (n + 1) s = clocks n t := by
  simp only [clocks]
  rw [h]
  rfl

theorem clocksToFetch_succ_ok {n : Nat} {s t : State} {p : ClkPorts} (h : clock s = .ok (t, p)) :
    clocksToFetch (n + 1) s = if t.fsmState = .fetch then .ok t else clocksToFetch n t := by
  simp only [clocksToFetch]
  rw [h]
  rfl

theorem clocksToFetch_succ_error {n : Nat} {s : State} {f : Fault} (h : clock s = .error f) :
    clocksToFetch (n + 1) s = .error f := by
  simp only [clocksToFetch]
  rw [h]
  rfl

theorem Leads.clocks_add {k : Nat} {s u : State} (h : Leads k s u) (n : Nat) : clocks (n + k) s = clocks n u := by
  induction h with
  | refl => rfl
  | head hc _ _ ih => exact (clocks_succ_ok hc).trans ih

theorem Leads.clocksToFetch_add {k : Nat} {s u : State} (h : Leads k s u) (n : Nat) :
    clocksToFetch (n + k) s = clocksToFetch n u := by
  induction h with
  | refl => rfl
  | head hc hf _ ih => exact (clocksToFetch_succ_ok hc).trans ((if_neg hf).trans ih)

/-- No state on the way is in `Fetch`. -/
theorem Leads.not_fetch {k : Nat} {s u : State} (h : Leads k s u) {j : Nat} {v : State} (h0 : 0 < j) (hj : j ≤ k)
    (hv : clocks j s = .ok v) : v.fsmState ≠ .fetch := by
  induction h generalizing j with
  | refl => omega
  | head hc hf _ ih =>
    obtain ⟨j, rfl⟩ := Nat.exists_eq_succ_of_ne_zero h0.ne'
    rw [Nat.succ_eq_add_one, clocks_succ_ok hc] at hv
    cases j with
    | zero => cases hv; exact hf
    | succ j => exact ih (Nat.succ_pos j) (Nat.le_of_succ_le_succ hj) hv

section Instructions

variable {s : State} (hs : s.fsmState = .fetch) (hr : fetchInRange s.pc s = true) {w : Word}
  (hw : codeWord s.cfg.code (u32 s.pc) = w)

/-- The state the `Fetch` cycle of any instruction but PRINT leaves. -/
def issued (s : State) (w : Word) : State :=
  { s.issue w with fsmState := .decode, zero := zeroOf (s.pc + 4), aluOutput := s.pc + 4, data := w }

include hs hr hw

theorem leads_issued (hp : ¬(opcodeField w = 0 ∧ functField w = 0)) : Leads 1 s (issued s w) := by
  subst hw
  rw [← isPrint_iff, Bool.not_eq_true] at hp
  have h : fetchCycle s (codeWord s.cfg.code (u32 s.pc)) = issued s (codeWord s.cfg.code (u32 s.pc)) := by
    simp only [fetchCycle, hp]
    rfl
  have hc := clock_fetch hs hr
  rw [h] at hc
  exact .head hc (by simp [issued]) (.refl _)

/-- `Decode` moves on to the state the opcode names, the branch target in `alu_output`. -/
theorem leads_decoded (hp : ¬(opcodeField w = 0 ∧ functField w = 0)) {st : FsmState}
    (hn : nextState s.cfg.enc .decode (opcodeField w) = some st) :
    Leads 2 s (probeCycle (issued s w) st (branchTarget (s.pc + 4) (imm8Field w))) := by
  refine (leads_issued hs hr hw hp).tail (clock_decode (s := issued s w) rfl hn) ?_
  rintro rfl
  simp only [nextState] at hn
  split_ifs at hn <;> cases hn

/-- The state before an R-type operation's write-back. -/
theorem leads_rTypeExecuted (h0 : opcodeField w = 0) (hf : functField w ≠ 0) {v : Word}
    (ha : alu s.cfg.enc (s.readReg (rsField w)) (s.readReg (rtField w)) (functField w) = some v) :
    Leads 3 s (probeCycle (issued s w) .rTypeWriteback v) := by
  have h2 := leads_decoded hs hr hw (st := .rTypeExecute) (fun h => hf h.2) (by simp [nextState, h0])
  exact h2.tail (clock_rTypeExecute (by rfl) (v := v) ha) (by simp [probeCycle])

/-- The state before a load's or a store's memory cycle. -/
theorem leads_addressed (hv : s.cfg.enc.Valid) {st : FsmState} (h0 : opcodeField w = s.cfg.enc.opLw ∨ opcodeField w = s.cfg.enc.opSw)
    (hn : nextState s.cfg.enc .iTypeAddressCompute (opcodeField w) = some st) :
    Leads 3 s { addressEffect w (effectiveAddress (s.readReg (rsField w)) (imm8Field w)) s with fsmState := st } := by
  obtain ⟨-, -, ⟨o4, o5, o6⟩, ⟨o7, o8, o9, -⟩, -, -, -, y4, y5⟩ := hv.opcodes_ne
  have hne : opcodeField w ≠ 0 := by rcases h0 with h | h <;> rw [h] <;> assumption
  have h2 := leads_decoded hs hr hw (st := .iTypeAddressCompute) (fun h => hne h.1) (by
    rcases h0 with h | h <;> simp [nextState, h, o4, o5, o6, y4, o7, o8, o9, y5])
  refine h2.tail (clock_iTypeAddressCompute (by rfl) hn) ?_
  rintro hc
  cases hc
  simp only [nextState] at hn
  split_ifs at hn <;> cases hn

/-- The state before a branch's comparison. -/
theorem leads_branch (hv : s.cfg.enc.Valid) (h0 : opcodeField w = s.cfg.enc.opBeq ∨ opcodeField w = s.cfg.enc.opBne) :
    Leads 2 s (probeCycle (issued s w) .branch (branchTarget (s.pc + 4) (imm8Field w))) := by
  obtain ⟨o1, ⟨o2, o3⟩, -, -, -, y2, y3, -⟩ := hv.opcodes_ne
  have hne : opcodeField w ≠ 0 := by rcases h0 with h | h <;> rw [h] <;> assumption
  exact leads_decoded hs hr hw (fun h => hne h.1) (by rcases h0 with h | h <;> simp [nextState, h, o1, o2, o3, y2, y3])

/-- The state before a jump. -/
theorem leads_jump (hv : s.cfg.enc.Valid) (h0 : opcodeField w = s.cfg.enc.opJ) :
    Leads 2 s (probeCycle (issued s w) .jType (branchTarget (s.pc + 4) (imm8Field w))) := by
  obtain ⟨-, -, -, -, y1, -⟩ := hv.opcodes_ne
  exact leads_decoded hs hr hw (fun h => y1 (h0 ▸ h.1)) (by simp [nextState, h0, y1])

end Instructions

end Sys2Proof.Machine
end

