-- ==== Sys2Proof/Laws/PerInstr.lean ====
section
/-! SUPPORT. Facts about every instruction's word, one lemma per constructor: its opcode field, and its function code if it
is R-type (30_encoding.md R71 to R78). -/

namespace Sys2Proof

/-- The opcode of an instruction (R77). -/
def Instr.opcode (e : Enc) : Instr → BitVec 6
  | .add _ _ _ _ => 0
  | .sub _ _ _ _ => 0
  | .and _ _ _ _ => 0
  | .or _ _ _ _ => 0
  | .nor _ _ _ _ => 0
  | .slt _ _ _ _ => 0
  | .print _ _ _ _ => 0
  | .lw _ _ _ _ => e.opLw
  | .sw _ _ _ _ => e.opSw
  | .beq _ _ _ _ => e.opBeq
  | .bne _ _ _ _ => e.opBne
  | .j _ => e.opJ

/-- The function code of an R-type instruction (R78). -/
def Instr.funct (e : Enc) : Instr → Option (BitVec 6)
  | .add _ _ _ _ => some e.fnAdd
  | .sub _ _ _ _ => some e.fnSub
  | .and _ _ _ _ => some e.fnAnd
  | .or _ _ _ _ => some e.fnOr
  | .nor _ _ _ _ => some e.fnNor
  | .slt _ _ _ _ => some e.fnSlt
  | .print _ _ _ _ => some 0
  | .lw _ _ _ _ => none
  | .sw _ _ _ _ => none
  | .beq _ _ _ _ => none
  | .bne _ _ _ _ => none
  | .j _ => none

namespace Laws.EncodeFields

/-- The word of `i` has `i`'s opcode in bits 31:26 and, for an R-type instruction, `i`'s function code in bits 5:0. -/
def Statement (i : Instr) : Prop :=
  ∀ e : Enc, opcodeField (encode e i) = i.opcode e ∧ ∀ fn ∈ i.funct e, functField (encode e i) = fn

theorem add (rs rt rd : RegIx) (ign : BitVec 5) : Statement (.add rs rt rd ign) := fun _ => by
  simp [encode, Instr.opcode, Instr.funct]
theorem sub (rs rt rd : RegIx) (ign : BitVec 5) : Statement (.sub rs rt rd ign) := fun _ => by
  simp [encode, Instr.opcode, Instr.funct]
theorem and (rs rt rd : RegIx) (ign : BitVec 5) : Statement (.and rs rt rd ign) := fun _ => by
  simp [encode, Instr.opcode, Instr.funct]
theorem or (rs rt rd : RegIx) (ign : BitVec 5) : Statement (.or rs rt rd ign) := fun _ => by
  simp [encode, Instr.opcode, Instr.funct]
theorem nor (rs rt rd : RegIx) (ign : BitVec 5) : Statement (.nor rs rt rd ign) := fun _ => by
  simp [encode, Instr.opcode, Instr.funct]
theorem slt (rs rt rd : RegIx) (ign : BitVec 5) : Statement (.slt rs rt rd ign) := fun _ => by
  simp [encode, Instr.opcode, Instr.funct]
theorem print (rs rt rd : RegIx) (ign : BitVec 5) : Statement (.print rs rt rd ign) := fun _ => by
  simp [encode, Instr.opcode, Instr.funct]
theorem lw (rs rt : RegIx) (ign imm8 : BitVec 8) : Statement (.lw rs rt ign imm8) := fun _ => by
  simp [encode, Instr.opcode, Instr.funct]
theorem sw (rs rt : RegIx) (ign imm8 : BitVec 8) : Statement (.sw rs rt ign imm8) := fun _ => by
  simp [encode, Instr.opcode, Instr.funct]
theorem beq (rs rt : RegIx) (ign imm8 : BitVec 8) : Statement (.beq rs rt ign imm8) := fun _ => by
  simp [encode, Instr.opcode, Instr.funct]
theorem bne (rs rt : RegIx) (ign imm8 : BitVec 8) : Statement (.bne rs rt ign imm8) := fun _ => by
  simp [encode, Instr.opcode, Instr.funct]
theorem j (addr26 : BitVec 26) : Statement (.j addr26) := fun _ => by
  simp [encode, Instr.opcode, Instr.funct]

end Laws.EncodeFields

end Sys2Proof
end

