-- ==== Sys2Proof/Tests/Slice0.lean ====
section
/-! SUPPORT. The model's own tests: the checks of WellFormed on ill-formed terms, the words of the spec's V4 table, one step of
each instruction on values the spec's vectors give (95_test_vectors.md V1, V3, V4, V6 and the rules' examples), and, for each
obligation with hypotheses, a concrete case that meets them. -/

namespace Sys2Proof.Tests

open Sys2Proof Sys2Proof.Machine Sys2Proof.Claims

/-! ### Helpers -/

/-- The next state of an outcome, if it is one. -/
def nextOf : Host.Outcome State Fault Refusal → Option State
  | .next t => some t
  | .fault _ => none
  | .refused _ => none

/-- The record of an outcome that is a fault. -/
def recordOf : Host.Outcome State Fault Refusal → Option FaultRecord
  | .next _ => none
  | .fault f => some f.record
  | .refused _ => none

/-- The state after reset with word `w` next, `a` in register 1 and `b` in register 2. -/
def start (w : Nat) (a b : Word) : State := ((State.reset.withFetchWord 32 w).setReg 1 a).setReg 2 b

/-- One step from there, and what `f` reads of the state it leaves. -/
def after {α : Type} (w : Nat) (a b : Word) (f : State → α) : Option α := (nextOf (step (start w a b))).map f

/-- The state after `k` cycles that raise nothing; `s` itself if one raises. -/
def cycled (k : Nat) (s : State) : State :=
  match clocks k s with
  | .ok t => t
  | .error _ => s

/-- The state a cycle leaves, if it completes. -/
def clocked (s : State) : Option State :=
  match clock s with
  | .ok r => some r.1
  | .error _ => none

/-- The record of the fault a cycle raises, if it does. -/
def clockRecord (s : State) : Option FaultRecord :=
  match clock s with
  | .ok _ => none
  | .error f => some f.record

/-! ### WellFormed: each check refuses an ill-formed term -/

theorem test_default_enc_valid : Enc.default.Valid := by decide
theorem test_default_config_valid : Config.default.Valid := by decide
/-- J and BEQ share a number. -/
theorem test_duplicate_opcode_refused : Enc.opcodesOk { Enc.default with opJ := 0x04 } = false := by decide
/-- 0 is the R-type opcode. -/
theorem test_zero_opcode_refused : Enc.opcodesOk { Enc.default with opSw := 0 } = false := by decide
/-- ADD and SLT share a code. -/
theorem test_duplicate_funct_refused : Enc.functsOk { Enc.default with fnSlt := 0x20 } = false := by decide
/-- 0 is PRINT's function code. -/
theorem test_zero_funct_refused : Enc.functsOk { Enc.default with fnNor := 0 } = false := by decide
theorem test_memory_too_small_refused : Config.memSizeOk { Config.default with memSize := 3 } = false := by decide
theorem test_memory_too_large_refused : Config.memSizeOk { Config.default with memSize := 2 ^ 31 + 1 } = false := by decide
theorem test_ragged_code_refused : Config.codeOk { Config.default with code := [0, 0, 0, 0, 0] } = false := by decide
theorem test_long_image_refused : Config.imageOk { Config.default with memSize := 4, initMem := [1, 2, 3, 4, 5] } = false := by
  decide

/-! ### Decoding: one word of each instruction, bit by bit from R71 to R78 (the words of V4) -/

/-- `add r3, r1, r2`: opcode, rs, rt, rd, ignored, function code. -/
theorem test_decode_add : decodeTableWord 32 0b000000_00001_00010_00011_00000_100000 = some (.add 1 2 3 0) := by decide
theorem test_decode_sub : decodeTableWord 32 0b000000_00001_00010_00011_00000_100010 = some (.sub 1 2 3 0) := by decide
theorem test_decode_and : decodeTableWord 32 0b000000_00001_00010_00101_00000_100100 = some (.and 1 2 5 0) := by decide
theorem test_decode_or : decodeTableWord 32 0b000000_00001_00000_00110_00000_100101 = some (.or 1 0 6 0) := by decide
theorem test_decode_nor : decodeTableWord 32 0b000000_00000_00000_00111_00000_100111 = some (.nor 0 0 7 0) := by decide
theorem test_decode_slt : decodeTableWord 32 0b000000_00010_00100_01000_00000_101010 = some (.slt 2 4 8 0) := by decide
theorem test_decode_print : decodeTableWord 32 0b000000_00001_00000_00000_00000_000000 = some (.print 1 0 0 0) := by decide
/-- `lw r1, 0(r0)`: opcode, rs, rt, ignored, imm8. -/
theorem test_decode_lw : decodeTableWord 32 0b100011_00000_00001_11111111_00000000 = some (.lw 0 1 0xFF 0) := by decide
theorem test_decode_sw : decodeTableWord 32 0b101011_00000_00011_00000000_01100100 = some (.sw 0 3 0 100) := by decide
theorem test_decode_beq : decodeTableWord 32 0b000100_00001_00000_00000000_00000001 = some (.beq 1 0 0 1) := by decide
theorem test_decode_bne : decodeTableWord 32 0b000101_01000_00000_00000000_00000001 = some (.bne 8 0 0 1) := by decide
/-- `j 2`: opcode, addr26. -/
theorem test_decode_j : decodeTableWord 32 0b000010_00000000000000000000000010 = some (.j 2) := by decide
theorem test_decode_illegal_funct : decodeTableWord 32 0x00221801 = none := by decide
theorem test_decode_illegal_opcode : decodeTableWord 32 0xFC000000 = none := by decide
theorem test_decode_truncated : decode Enc.default [0, 0x22, 0x18] = .error .truncated := by rfl

/-! ### One step of each instruction -/

/-- V1.1, V6.1: `add r3, r1, r2` wraps; the idle latches follow. -/
theorem test_add_wraps :
    after 0x00221820 0x7FFFFFFF 1 (fun t => (t.readReg 3, t.pc, t.aluOutput, t.zero, t.data)) =
      some (0x80000000, 4, 8, false, 0) := by decide
/-- V1.5. -/
theorem test_sub_wraps : after 0x00221822 0x80000000 1 (fun t => t.readReg 3) = some 0x7FFFFFFF := by decide
/-- V1.6: the order of the operands. -/
theorem test_sub_order : after 0x00221822 0 1 (fun t => t.readReg 3) = some 0xFFFFFFFF := by decide
/-- V1.10. -/
theorem test_and : after 0x00222824 0xF0F0F0F0 0x0F0F0F0F (fun t => t.readReg 5) = some 0 := by decide
/-- V1.11, as `or r5, r1, r2`. -/
theorem test_or : after 0x00222825 0xF0F0F0F0 0x0F0F0F0F (fun t => t.readReg 5) = some 0xFFFFFFFF := by decide
/-- V1.15, as `nor r5, r1, r2`. -/
theorem test_nor : after 0x00222827 0x12345678 0x12345678 (fun t => t.readReg 5) = some 0xEDCBA987 := by decide
/-- V1.18, V1.19, as `slt r5, r1, r2`: the comparison is signed. -/
theorem test_slt_signed :
    after 0x0022282A 0x80000000 0x7FFFFFFF (fun t => t.readReg 5) = some 1 ∧
    after 0x0022282A 0x7FFFFFFF 0x80000000 (fun t => t.readReg 5) = some 0 := by decide
/-- `print r1` appends the word and takes the `Fetch` cycle's latches. -/
theorem test_print :
    after 0x00200000 0xFFFFFFF9 0 (fun t => (t.out, t.pc, t.aluOutput, t.data)) = some ([0xFFFFFFF9], 4, 4, 0x00200000) := by
  decide
/-- R201: a negative word is rendered with its sign. -/
theorem test_print_rendered : renderWord 0xFFFFFFF9 = "-7\n" := by decide
/-- V3.3, `lw r1, 1(r0)`: unaligned and big-endian. -/
theorem test_lw_unaligned :
    (nextOf (step { start 0x8C010001 0 0 with mem := imageFrom 0 [0x11, 0x22, 0x33, 0x44, 0x55, 0x66, 0x77, 0x88] })).map
      (fun t => t.readReg 1) = some 0x22334455 := by decide
/-- V3.6, `lw r1, 0(r2)` past the last word. -/
theorem test_lw_out_of_range : recordOf (step (start 0x8C410000 0 0x00100000)) = some (.memOutOfRange 1048576) := by decide
/-- V3.8, `sw r1, 21(r0)`: four bytes, most significant lowest. -/
theorem test_sw_bytes : after 0xAC010015 0x80000000 0 (fun t => t.mem) = some [(21, 0x80)] := by decide
/-- V3.7, `sw r1, 0(r2)` at -4. -/
theorem test_sw_negative : recordOf (step (start 0xAC410000 0 0xFFFFFFFC)) = some (.memOutOfRange (-4)) := by decide
/-- `beq r1, r0, 1`: taken on equality, to the word after the next. -/
theorem test_beq :
    after 0x10200001 0 0 (fun t => (t.pc, t.zero)) = some (8, true) ∧
    after 0x10200001 5 0 (fun t => (t.pc, t.zero)) = some (4, false) := by decide
/-- `bne r1, r0, 1`. -/
theorem test_bne :
    after 0x14200001 0 0 (fun t => (t.pc, t.zero)) = some (4, true) ∧
    after 0x14200001 5 0 (fun t => (t.pc, t.zero)) = some (8, false) := by decide
/-- `j 2` goes to byte 8. -/
theorem test_j : after 0x08000002 0 0 (fun t => (t.pc, t.aluOutput)) = some (8, 8) := by decide
/-- The top four bits of `A + 4` are kept (R184). -/
theorem test_j_region : jumpTarget 0xF0000004 0x3FFFFFF = 0xFFFFFFFC := by decide
/-- V2.3, V2.4: a write to register 0 is fatal. -/
theorem test_register_zero_write :
    recordOf (step (start 0x00220020 0 0)) = some (.reg0Write .rTypeWriteback) ∧
    recordOf (step (start 0x8C000000 0 0)) = some (.reg0Write .iTypeReadWriteback) := by decide

/-! ### Steps that are no instruction -/

theorem test_illegal_opcode : recordOf (step (start 0xFC000000 0 0)) = some (.unknownOpcode 63) := by decide
theorem test_illegal_funct : recordOf (step (start 0x00221801 0 0)) = some (.unknownFunct 1) := by decide
/-- An empty stream: the first step from reset stops (V3.10). -/
theorem test_empty_stream : recordOf (step State.reset) = some (.fetchOutOfRange 0) := by decide

/-! ### Cycles (V6) -/

/-- V6.1, cycle by cycle: `PC`, `alu_output`, `zero`. -/
theorem test_add_cycles :
    (fun k => let t := cycled k (start 0x00221820 0x7FFFFFFF 1); (t.fsmState, t.pc, t.aluOutput, t.zero)) <$> [1, 2, 3, 4] =
      [(.decode, 4, 4, false), (.rTypeExecute, 4, 0x84, false), (.rTypeWriteback, 4, 0x80000000, false), (.fetch, 4, 8, false)] := by
  decide
/-- The call that ends an instruction at the end of the stream returns `false`, and none before it. -/
theorem test_clock_returns :
    (cycled 3 (start 0x00221820 1 1)).running = true ∧ (cycled 4 (start 0x00221820 1 1)).running = false := by decide

/-! ### Witnesses: for each obligation with hypotheses, a case that meets them

The ten control states, each reached from a fresh state. -/

def atFetch : State := start 0x00221820 5 3
def atDecode : State := cycled 1 atFetch
def atExecute : State := cycled 2 atFetch
def atRWriteback : State := cycled 3 atFetch
/-- `add r0, r1, r2` before its write-back. -/
def atRWritebackZero : State := cycled 3 (start 0x00220020 5 3)
def atPrint : State := start 0x00200000 7 0
def atJump : State := cycled 2 (start 0x08000002 0 0)
def atBranch : State := cycled 2 (start 0x10220001 5 5)
/-- `lw r1, 252(r2)` of the last word. -/
def loading : State := start 0x8C4100FC 0 0x000FFF00
def atAddress : State := cycled 2 loading
def atRead : State := cycled 3 loading
def atReadWriteback : State := cycled 4 loading
/-- `lw r0, 0(r0)` before its write-back. -/
def atReadWritebackZero : State := cycled 4 (start 0x8C000000 0 0)
/-- `lw r1, 0(r2)` one byte past the last word. -/
def atReadPast : State := cycled 3 (start 0x8C410000 0 0x000FFFFD)
def atWrite : State := cycled 3 (start 0xAC410000 9 0x000FFFFC)
/-- `sw r1, 0(r2)` at -4. -/
def atWriteNegative : State := cycled 3 (start 0xAC410000 9 0xFFFFFFFC)

/-- Hypotheses of every statement about a cycle that completes: in each control state one does. -/
theorem witness_clock_completes :
    (∀ s ∈ [atFetch, atDecode, atExecute, atRWriteback, atPrint], s.cfg.enc.Valid ∧ (clocked s).isSome = true) ∧
    (∀ s ∈ [atJump, atBranch, atAddress, atRead], s.cfg.enc.Valid ∧ (clocked s).isSome = true) ∧
    (∀ s ∈ [atReadWriteback, atWrite], s.cfg.enc.Valid ∧ (clocked s).isSome = true) := by decide

theorem witness_control_states :
    (atFetch.fsmState = .fetch ∧ atDecode.fsmState = .decode ∧ atExecute.fsmState = .rTypeExecute ∧
      atRWriteback.fsmState = .rTypeWriteback ∧ atPrint.fsmState = .fetch) ∧
    (atJump.fsmState = .jType ∧ atBranch.fsmState = .branch ∧ atAddress.fsmState = .iTypeAddressCompute) ∧
    (atRead.fsmState = .iTypeMemoryRead ∧ atReadWriteback.fsmState = .iTypeReadWriteback ∧
      atWrite.fsmState = .iTypeMemoryWrite) := by decide

/-- ClockWritesPcWhenEnabled: a cycle for each source of the PC, and one that leaves it. -/
theorem witness_ClockWritesPcWhenEnabled :
    (clocked atFetch).map State.pc = some 4 ∧ (clocked atBranch).map State.pc = some 8 ∧
    (clocked atJump).map State.pc = some 8 ∧ (clocked atExecute).map State.pc = some 4 := by decide

/-- ClockLatchesInstructionAndOperands: a cycle that latches and one that does not. -/
theorem witness_ClockLatchesInstructionAndOperands :
    (decision Enc.default atFetch.fsmState atFetch.fsmOpcode).irWrite = true ∧
    (decision Enc.default atDecode.fsmState atDecode.fsmOpcode).irWrite = false ∧
    (clocked atFetch).map State.operandA = some 5 ∧ (clocked atDecode).map State.operandA = some 5 := by decide

/-- PrintEscapesToFetch: a latched PRINT, and a latched word that is none. -/
theorem witness_PrintEscapesToFetch :
    ((clocked atPrint).map fun t => (t.ir.extractLsb' 26 6, t.ir.extractLsb' 0 6, t.out)) = some (0, 0, [7]) ∧
    ((clocked atFetch).map fun t => (t.ir.extractLsb' 26 6, t.ir.extractLsb' 0 6, t.out)) = some (0, 0x20, []) := by decide

/-- ClockReturnsFalseAtTheEnd: both answers. -/
theorem witness_ClockReturnsFalseAtTheEnd :
    (clocked atRWriteback).map State.running = some false ∧ (clocked atDecode).map State.running = some true := by decide

/-- ClockFaultsOnlyByTheTable, FaultRecordsAndWritesNothing: a cycle for each fault a cycle raises. -/
theorem witness_ClockFaultsOnlyByTheTable :
    clockRecord (cycled 1 (start 0xFC000000 0 0)) = some (.unknownOpcode 63) ∧
    clockRecord { atAddress with fsmOpcode := 0x02 } = some (.unknownOpcode 0x02) ∧
    clockRecord (cycled 2 (start 0x00221801 0 0)) = some (.unknownFunct 1) ∧
    clockRecord atRWritebackZero = some (.reg0Write .rTypeWriteback) ∧
    clockRecord atReadWritebackZero = some (.reg0Write .iTypeReadWriteback) ∧
    clockRecord atReadPast = some (.memOutOfRange 1048573) ∧
    clockRecord atWriteNegative = some (.memOutOfRange (-4)) ∧
    clockRecord State.reset = some (.fetchOutOfRange 0) := by decide

theorem witness_WritebackToZeroRaises :
    (atRWritebackZero.fsmState = .rTypeWriteback ∧ atRWritebackZero.ir.extractLsb' 11 5 = 0) ∧
    (atReadWritebackZero.fsmState = .iTypeReadWriteback ∧ atReadWritebackZero.ir.extractLsb' 16 5 = 0) := by decide

/-- One byte past the last word, and below 0. -/
theorem witness_DataAccessOutOfRangeRaises :
    (atReadPast.fsmState = .iTypeMemoryRead ∧ ¬legal atReadPast atReadPast.aluOutput) ∧
    (atWriteNegative.fsmState = .iTypeMemoryWrite ∧ ¬legal atWriteNegative atWriteNegative.aluOutput) := by
  unfold legal
  decide

/-- DecodeOfEncodeReturnsInstr and the ALU statements: a valid `ENC`. -/
theorem witness_valid_enc : Enc.default.Valid := test_default_enc_valid

theorem witness_EncodeOfDecodeReturnsBytes :
    decode Enc.default [0x8C, 0x01, 0xFF, 0x00, 0x12] = .ok (.lw 0 1 0xFF 0, [0x12]) := rfl

theorem witness_IllegalWordsAreRefusedByName :
    decodeWord Enc.default 0xFC000000 = .error (.illegalOpcode 63) ∧
    decodeWord Enc.default 0x00221801 = .error (.illegalFunct 1) := ⟨rfl, rfl⟩

theorem witness_AluSltIsSigned : s32 0x80000000 < s32 0x7FFFFFFF ∧ ¬s32 0x7FFFFFFF < s32 0x80000000 := by decide

theorem witness_AluSetsZeroFlagAlone :
    runAlu 5 5 0x22 State.reset = .ok (0, { State.reset with zero := true }) := rfl

theorem witness_UnsupportedFunctRaises :
    (1 : BitVec 6) ∉ State.reset.cfg.enc.functs ∧ (0x2A : BitVec 6) ∈ State.reset.cfg.enc.functs := by decide

/-- The lowest and the highest register that can be written, and a write-back of each kind. -/
theorem witness_RegisterReadsLastWrite :
    ((1 : RegIx) ≠ 0 ∧ (31 : RegIx) ≠ 0) ∧
    (clocked atRWriteback).map (fun t => (t.readReg 3, atRWriteback.readReg 3)) = some (8, 0) ∧
    (clocked { atReadWriteback with data := 6 }).map (fun t => (t.readReg 1, atReadWriteback.readReg 1)) = some (6, 0) := by
  decide

/-- The last legal address, the first past it, and the last of all. -/
theorem witness_MemReadIsBigEndian :
    legal State.reset 0 ∧ legal State.reset 0x000FFFFC ∧ ¬legal State.reset 0x000FFFFD ∧ ¬legal State.reset 0xFFFFFFFF := by
  unfold legal
  decide

theorem witness_MemWriteStoresFourBytes :
    State.reset.mem.wf ∧ legal State.reset 0 ∧ legal State.reset 0x000FFFFC ∧ ¬legal State.reset 0x000FFFFD := by
  unfold legal
  decide

theorem witness_OverlappingReadSeesLatestBytes :
    State.reset.mem.wf ∧ legal State.reset 20 ∧ legal State.reset 17 ∧
    memWrite 20 0x11223344 State.reset = .ok (State.reset.storeWord 20 0x11223344) := by
  refine ⟨by decide, by unfold legal; decide, by unfold legal; decide, rfl⟩

/-- AddAndSubComplete, LogicOperationsComplete, SetLessThanCompletes: a destination of each kind. -/
theorem witness_RTypeDoes : (31 : RegIx) ≠ 0 ∧ (0 : RegIx) = 0 := by decide

/-- LoadWordCompletes, StoreWordCompletes: the last word in range and the byte after it, a destination of each kind. -/
theorem witness_LoadWordCompletes :
    (legal loading (ea loading 2 252) ∧ (1 : RegIx) ≠ 0 ∧ loading.mem.wf) ∧ ¬legal loading (ea loading 2 253) := by
  unfold legal
  decide

theorem witness_InstructionCompletesExactlyWhen :
    completes (.add 1 2 3 0) atFetch = true ∧ completes (.add 1 2 0 0) atFetch = false ∧
    completes (.lw 2 1 0 252) loading = true ∧ completes (.lw 2 0 0 252) loading = false ∧
    completes (.sw 2 1 0 252) loading = true ∧ completes (.sw 2 1 0 253) loading = false := by decide

/-- InstructionFrame: a register instruction, a store and a PRINT that complete. -/
theorem witness_InstructionFrame :
    atFetch.mem.wf ∧ (nextOf (exec (.add 1 2 3 0) atFetch)).isSome = true ∧
    (nextOf (exec (.sw 2 1 0 252) loading)).isSome = true ∧ (nextOf (exec (.print 1 0 0 0) atFetch)).isSome = true := by
  decide

theorem witness_TransferTargetsAreAligned : u32 0xFFFFFFFC % 4 = 0 := by decide

/-- StepRunsDecodedInstr, StepIsTheDatapathsCycles, InstructionTakesItsCycles. -/
theorem witness_StepRunsDecodedInstr :
    atFetch.cfg.enc.Valid ∧ atFetch.fault = none ∧ atFetch.fsmState = .fetch ∧
    decode atFetch.cfg.enc (atFetch.cfg.code.drop (u32 atFetch.pc)) = .ok (.add 1 2 3 0, []) ∧
    (nextOf (exec (.add 1 2 3 0) atFetch)).isSome = true := by
  refine ⟨by decide, by decide, by decide, rfl, by decide⟩

theorem witness_InstructionTakesItsCycles :
    (cycled 3 atFetch).fsmState ≠ .fetch ∧ (cycled 4 atFetch).fsmState = .fetch ∧ (cycled 4 loading).fsmState ≠ .fetch ∧
    (cycled 5 loading).fsmState = .fetch := by decide

theorem witness_FetchIsReachedWithinFiveCycles :
    loading.cfg.enc.Valid ∧ clocksToFetch 5 loading = .ok (cycled 5 loading) := ⟨by decide, by rfl⟩

theorem witness_IllegalOpcodeStopsInDecode :
    let s := start 0xFC000000 0 0
    s.cfg.enc.Valid ∧ s.fault = none ∧ s.fsmState = .fetch ∧ u32 s.pc + 4 ≤ s.cfg.code.length ∧
    decodeWord s.cfg.enc (codeWord s.cfg.code (u32 s.pc)) = .error (.illegalOpcode 63) := by
  refine ⟨by decide, by decide, by decide, by decide, rfl⟩

theorem witness_IllegalFunctStopsInExecute :
    let s := start 0x00221801 0 0
    s.cfg.enc.Valid ∧ s.fault = none ∧ s.fsmState = .fetch ∧ u32 s.pc + 4 ≤ s.cfg.code.length ∧
    decodeWord s.cfg.enc (codeWord s.cfg.code (u32 s.pc)) = .error (.illegalFunct 1) := by
  refine ⟨by decide, by decide, by decide, by decide, rfl⟩

/-- An empty stream, and the PC just past a stream of one word. -/
theorem witness_FetchPastEndStops :
    (State.reset.fault = none ∧ State.reset.fsmState = .fetch ∧ State.reset.cfg.code.length < u32 State.reset.pc + 4) ∧
    (let t := cycled 4 atFetch
     t.fault = none ∧ t.fsmState = .fetch ∧ t.cfg.code.length < u32 t.pc + 4) := by decide

theorem witness_FaultedStateAdmitsNothing :
    State.fault { State.reset with fault := some (.unknownOpcode 63) } = some (.unknownOpcode 63) := rfl

/-- A valid configuration, a stream of five bytes, and an image one byte too long. -/
theorem witness_ConstructionGivesInvariantOrRefuses :
    Config.default.Valid ∧ ¬([0, 0, 0, 0, 0] : List Byte).length % 4 = 0 ∧
    (let c := { Config.default with memSize := 4, initMem := [1, 2, 3, 4, 5] }
     (c.code.length % 4 = 0 ∧ c.code.length < 2 ^ 32) ∧ c.memSize < c.initMem.length) := by decide

/-- ClockKeepsInvariant, StepKeepsInvariant, HostResetKeepsInvariant, ReplayAfterResetIsIdentical: a state with the invariant whose stream holds
an instruction that completes. -/
theorem witness_invariant : atFetch.Inv where
  cfgValid := by decide
  noFault := by decide
  regZero := by decide
  pcAligned := by decide
  memWf := by decide
  memBelow := by decide
  snapshotImage := by decide
  opcodeCopy := by decide
  functCopy := by decide
  latchedOk := trivial

theorem witness_StepKeepsInvariant :
    (clocked atFetch).isSome = true ∧ (nextOf (step atFetch)).isSome = true ∧ atFetch.cfg.code ≠ [] := by decide

theorem witness_ReachableStatesHaveInvariant :
    Config.default.Valid ∧ Reachable Config.default (State.fresh Config.default).resetCore :=
  ⟨test_default_config_valid, .reset .fresh⟩

/-- ResetSetsAndIsIdempotent, ClockAndStepAreAdmittedWithoutFault: no fault set, within an instruction; a cycle that completes and
one that raises. -/
theorem witness_ResetSetsAndIsIdempotent :
    atDecode.fault = none ∧ (clocked atDecode).isSome = true ∧
    atRWritebackZero.fault = none ∧ (clockRecord atRWritebackZero).isSome = true := by decide

/-- Replay, when the run completes and when it faults. -/
theorem witness_ReplayAfterResetIsIdentical :
    clocks 4 (State.fresh atFetch.cfg) = .ok (cycled 4 (State.fresh atFetch.cfg)) ∧
    (match clocks 5 (State.fresh atFetch.cfg) with
      | .ok _ => none
      | .error f => some f.record) = some (.fetchOutOfRange 4) := ⟨rfl, rfl⟩

/-- The first number past each enumeration. -/
theorem witness_SelectorNumbersAreClosed : 2 ≤ 2 ∧ 4 ≤ 4 ∧ 3 ≤ 3 := by decide

end Sys2Proof.Tests
end

/-! PROOFS. The statements of the family 10_state.md: what one cycle and one instruction change in the state, said once each
(`Cycle`, `Retired`), the invariant kept by both, and construction and `reset()`. -/

namespace Sys2Proof.Machine

/-! ### Multiples of 4: the addresses the PC takes (10_state.md R27; 43_control_transfer.md R189) -/

theorem u32_add_mod_four {a b : Word} (ha : u32 a % 4 = 0) (hb : u32 b % 4 = 0) : u32 (a + b) % 4 = 0 := by
  simp only [u32, BitVec.toNat_add] at ha hb ⊢
  omega

theorem u32_add_four_mod_four {a : Word} (ha : u32 a % 4 = 0) : u32 (a + 4) % 4 = 0 :=
  u32_add_mod_four ha rfl

theorem u32_immShift2Of (imm8 : BitVec 8) : u32 (immShift2Of imm8) = 4 * imm8.toNat := by
  have := imm8.isLt
  simp only [immShift2Of, u32, BitVec.toNat_shiftLeft, BitVec.toNat_setWidth, Nat.shiftLeft_eq]
  omega

theorem u32_branchTarget_mod_four {pc : Word} (h : u32 pc % 4 = 0) (imm8 : BitVec 8) :
    u32 (branchTarget pc imm8) % 4 = 0 :=
  u32_add_mod_four h (by rw [u32_immShift2Of]; omega)

/-- A jump target is a multiple of 4 whatever the PC is: its last two bits are the appended zeros (R184). -/
theorem u32_jumpTarget_mod_four (pc : Word) (addr26 : BitVec 26) : u32 (jumpTarget pc addr26) % 4 = 0 := by
  simp only [jumpTarget, u32, BitVec.toNat_append, BitVec.ofNat_eq_ofNat, BitVec.toNat_ofNat, Nat.zero_mod, Nat.or_zero]
  rw [Nat.shiftLeft_eq]
  omega

/-- Where an instruction can leave the PC, `next` being `A + 4`: there, at a branch target, or at a jump target. -/
inductive NextPc (next : Word) : Word → Prop where
  | sequential : NextPc next next
  | branch (imm8 : BitVec 8) : NextPc next (branchTarget next imm8)
  | jump (addr26 : BitVec 26) : NextPc next (jumpTarget next addr26)

theorem NextPc.mod_four {next pc : Word} (h : NextPc next pc) (hn : u32 next % 4 = 0) : u32 pc % 4 = 0 := by
  cases h with
  | sequential => exact hn
  | branch imm8 => exact u32_branchTarget_mod_four hn imm8
  | jump addr26 => exact u32_jumpTarget_mod_four next addr26

/-! ### What can happen to the registers and to the memory -/

theorem State.readReg_eq_of_regs_eq {s t : State} (h : t.regs = s.regs) (i : RegIx) : t.readReg i = s.readReg i := by
  unfold State.readReg
  rw [h]

/-- After `reset()` every register reads 0 (R45). -/
theorem State.readReg_resetCore (s : State) (i : RegIx) : s.resetCore.readReg i = 0 := by
  rw [State.readReg]
  split
  · rfl
  · exact Vector.getElem_replicate i.isLt

/-- The registers of `t` are those of `s`, but for the one named, if any; that one is not register 0 (R23). -/
inductive RegsChange (s t : State) : Option RegIx → Prop where
  | keep : t.regs = s.regs → RegsChange s t none
  | write {i : RegIx} (v : Word) : i ≠ 0 → t.regs = (s.setReg i v).regs → RegsChange s t (some i)

theorem RegsChange.readReg_eq {s t : State} {dest : Option RegIx} (h : RegsChange s t dest) {j : RegIx}
    (hj : dest ≠ some j) : t.readReg j = s.readReg j := by
  cases h with
  | keep hr => exact State.readReg_eq_of_regs_eq hr j
  | write v hi hr =>
    have hji : j ≠ _ := fun hc => hj (congrArg some hc.symm)
    rw [State.readReg_eq_of_regs_eq hr, State.readReg_setReg s hi, if_neg hji]

/-- The slot of register 0 keeps its value. -/
theorem RegsChange.slot_zero {s t : State} {dest : Option RegIx} (h : RegsChange s t dest) : t.regs[0] = s.regs[0] := by
  cases h with
  | keep hr => rw [hr]
  | @write i v hi hr =>
    have : i.toNat ≠ 0 := fun hc => hi (BitVec.eq_of_toNat_eq hc)
    rw [hr, State.setReg, Vector.getElem_set_ne _ _ this]

/-- The memory of `t` is that of `s`, but for the four bytes at the address named, if any; those are in range (R54). -/
inductive MemChange (s t : State) : Option Nat → Prop where
  | keep : t.mem = s.mem → MemChange s t none
  | store {a : Nat} (v : Word) : a + 4 ≤ s.cfg.memSize → t.mem = s.mem.writeWord a v → MemChange s t (some a)

theorem MemChange.wf {s t : State} {stored : Option Nat} (h : MemChange s t stored) (hs : s.mem.wf) : t.mem.wf := by
  cases h with
  | keep hm => rwa [hm]
  | store v _ hm => rw [hm]; exact Memory.wf_writeWord hs _ v

theorem MemChange.below {s t : State} {stored : Option Nat} (h : MemChange s t stored) (hs : s.mem.below s.cfg.memSize) :
    t.mem.below s.cfg.memSize := by
  cases h with
  | keep hm => rwa [hm]
  | store v ha hm => rw [hm]; exact Memory.below_writeWord hs ha v

/-- A byte outside the four stored reads as before (20_memory.md R53). -/
theorem MemChange.read_eq {s t : State} {stored : Option Nat} (h : MemChange s t stored) (hs : s.mem.wf) {a : Nat}
    (ha : ∀ b, stored = some b → a < b ∨ b + 4 ≤ a) : t.mem.read a = s.mem.read a := by
  cases h with
  | keep hm => rw [hm]
  | @store b v _ hm =>
    have hout := ha b rfl
    rw [hm, Memory.read_writeWord hs, if_neg (by omega), if_neg (by omega), if_neg (by omega), if_neg (by omega)]

/-! ### The invariant, by what a transition changes -/

theorem State.Inv.encValid {s : State} (h : s.Inv) : s.cfg.enc.Valid := h.cfgValid.1

/-- In `Fetch` the invariant asks nothing of the latches. -/
theorem State.latchedOk_of_fetch {s : State} (h : s.fsmState = .fetch) : s.latchedOk := by
  simp only [State.latchedOk, h]

/-- A transition that writes registers and memory only as `RegsChange` and `MemChange` say keeps the invariant if it keeps
the PC a multiple of 4 and the latches in order. -/
theorem State.Inv.of_changes {s t : State} {dest : Option RegIx} {stored : Option Nat} (h : s.Inv) (hcfg : t.cfg = s.cfg)
    (hsnap : t.snapshot = s.snapshot) (hfault : t.fault = s.fault) (hregs : RegsChange s t dest)
    (hmem : MemChange s t stored) (hpc : u32 t.pc % 4 = 0) (hop : t.fsmOpcode = opcodeField t.ir)
    (hfn : t.fsmFunct = functField t.ir) (hl : t.latchedOk) : t.Inv where
  cfgValid := hcfg ▸ h.cfgValid
  noFault := hfault.trans h.noFault
  regZero := hregs.slot_zero.trans h.regZero
  pcAligned := hpc
  memWf := hmem.wf h.memWf
  memBelow := hcfg ▸ hmem.below h.memBelow
  snapshotImage := by rw [hsnap, hcfg]; exact h.snapshotImage
  opcodeCopy := hop
  functCopy := hfn
  latchedOk := hl

/-! ### One cycle -/

/-- Which states a cycle run in `s` can leave: `clock_ok_cases` as a relation with one constructor per control state. -/
inductive Cycle (s : State) : State → Prop where
  | fetch : s.fsmState = .fetch → Cycle s (fetchCycle s (codeWord s.cfg.code (u32 s.pc)))
  | decode {st : FsmState} : s.fsmState = .decode → nextState s.cfg.enc .decode s.fsmOpcode = some st →
      Cycle s (probeCycle s st (branchTarget s.pc (imm8Field s.ir)))
  | execute {v : Word} : s.fsmState = .rTypeExecute →
      alu s.cfg.enc s.operandA s.operandB s.fsmFunct = some v → Cycle s (probeCycle s .rTypeWriteback v)
  | writeResult : s.fsmState = .rTypeWriteback → rdField s.ir ≠ 0 →
      Cycle s (writebackCycle s (rdField s.ir) s.aluOutput)
  | jump : s.fsmState = .jType → Cycle s (jumpCycle s)
  | address {st : FsmState} : s.fsmState = .iTypeAddressCompute →
      nextState s.cfg.enc .iTypeAddressCompute s.fsmOpcode = some st →
      Cycle s (probeCycle s st (effectiveAddress s.operandA (imm8Field s.ir)))
  | read : s.fsmState = .iTypeMemoryRead → Cycle s (readCycle s (s.mem.readWord (byteAddr s.aluOutput)))
  | store : s.fsmState = .iTypeMemoryWrite → dataInRange s.cfg.memSize s.aluOutput = true →
      Cycle s (storeDone s.operandB (byteAddr s.aluOutput)
        ((s.mem.writeWord (byteAddr s.aluOutput) s.operandB).readWord (byteAddr s.aluOutput)) s)
  | writeLoaded : s.fsmState = .iTypeReadWriteback → rtField s.ir ≠ 0 →
      Cycle s (writebackCycle s (rtField s.ir) s.data)
  | branch : s.fsmState = .branch → Cycle s (branchCycle s)

theorem clock_cycle {s t : State} {p : ClkPorts} (hv : s.cfg.enc.Valid) (h : clock s = .ok (t, p)) : Cycle s t := by
  have hr := (clock_ok_cases hv h).2
  cases hs : s.fsmState <;> simp only [hs] at hr
  case fetch => obtain ⟨-, rfl, -⟩ := hr; exact .fetch hs
  case decode => obtain ⟨⟨_, hn, rfl⟩, -⟩ := hr; exact .decode hs hn
  case rTypeExecute => obtain ⟨⟨_, ha, rfl⟩, -⟩ := hr; exact .execute hs ha
  case rTypeWriteback => obtain ⟨hd, rfl, -⟩ := hr; exact .writeResult hs hd
  case jType => obtain ⟨rfl, -⟩ := hr; exact .jump hs
  case iTypeAddressCompute => obtain ⟨⟨_, hn, rfl⟩, -⟩ := hr; exact .address hs hn
  case iTypeMemoryRead => obtain ⟨-, rfl, -⟩ := hr; exact .read hs
  case iTypeMemoryWrite => obtain ⟨hd, rfl, -⟩ := hr; exact .store hs hd
  case iTypeReadWriteback => obtain ⟨hd, rfl, -⟩ := hr; exact .writeLoaded hs hd
  case branch => obtain ⟨rfl, -⟩ := hr; exact .branch hs

namespace Cycle

variable {s t : State}

theorem snapshot_eq (h : Cycle s t) : t.snapshot = s.snapshot := by cases h <;> rfl

theorem fault_eq (h : Cycle s t) : t.fault = s.fault := by cases h <;> rfl

/-- Only the two write-back states write a register, and not register 0 (10_state.md R23, R25). -/
theorem regsChange (h : Cycle s t) : ∃ dest, RegsChange s t dest := by
  cases h with
  | writeResult _ hd => exact ⟨_, .write s.aluOutput hd rfl⟩
  | writeLoaded _ hd => exact ⟨_, .write s.data hd rfl⟩
  | _ => exact ⟨none, .keep rfl⟩

/-- Only `ITypeMemoryWrite` writes the memory, in range (40_datapath.md R108; 20_memory.md R54). -/
theorem memChange (h : Cycle s t) : ∃ stored, MemChange s t stored := by
  cases h with
  | store _ hr => exact ⟨_, .store s.operandB (byteAddr_of_dataInRange hr).2 rfl⟩
  | _ => exact ⟨none, .keep rfl⟩

/-- `Fetch` latches the word and its fields together; no other cycle changes them (10_state.md R34). -/
theorem fsmOpcode_eq (h : Cycle s t) (hs : s.fsmOpcode = opcodeField s.ir) : t.fsmOpcode = opcodeField t.ir := by
  cases h with
  | fetch => rfl
  | _ => exact hs

theorem fsmFunct_eq (h : Cycle s t) (hs : s.fsmFunct = functField s.ir) : t.fsmFunct = functField t.ir := by
  cases h with
  | fetch => rfl
  | _ => exact hs

/-- The PC moves in `Fetch`, in `JType` and in a taken `Branch`, there to the target latched in `Decode`. -/
theorem pc_mod_four (h : Cycle s t) (hl : s.latchedOk) (hs : u32 s.pc % 4 = 0) : u32 t.pc % 4 = 0 := by
  cases h with
  | fetch => exact u32_add_four_mod_four hs
  | jump => exact u32_jumpTarget_mod_four _ _
  | branch hb =>
    simp only [State.latchedOk, hb] at hl
    simp only [branchCycle]
    split
    · exact hl.2
    · exact hs
  | _ => exact hs

theorem zero_eq (h : Cycle s t) : t.zero = zeroOf t.aluOutput := by cases h <;> rfl

end Cycle

theorem nextState_decode_cases {e : Enc} {op : BitVec 6} {st : FsmState} (h : nextState e .decode op = some st) :
    (op = 0 ∧ st = .rTypeExecute) ∨ (op = e.opJ ∧ st = .jType) ∨
    ((op = e.opBeq ∨ op = e.opBne) ∧ st = .branch) ∨ ((op = e.opLw ∨ op = e.opSw) ∧ st = .iTypeAddressCompute) := by
  simp only [nextState] at h
  split_ifs at h with h0 hj hb hm <;> cases h
  · exact .inl ⟨h0, rfl⟩
  · exact .inr (.inl ⟨hj, rfl⟩)
  · exact .inr (.inr (.inl ⟨hb, rfl⟩))
  · exact .inr (.inr (.inr ⟨hm, rfl⟩))

theorem nextState_addressCompute_cases {e : Enc} {op : BitVec 6} {st : FsmState}
    (h : nextState e .iTypeAddressCompute op = some st) :
    (op = e.opLw ∧ st = .iTypeMemoryRead) ∨ (op = e.opSw ∧ st = .iTypeMemoryWrite) := by
  simp only [nextState] at h
  split_ifs at h with hl hw <;> cases h
  · exact .inl ⟨hl, rfl⟩
  · exact .inr ⟨hw, rfl⟩

/-- Each control state is entered with an opcode, and a function code, that leads to it (40_datapath.md R112, R118). -/
theorem Cycle.latchedOk {s t : State} (h : Cycle s t) (hl : s.latchedOk) (hpc : u32 s.pc % 4 = 0) : t.latchedOk := by
  cases h with
  | fetch hs =>
    by_cases hp : isPrint (codeWord s.cfg.code (u32 s.pc)) = true
    · exact State.latchedOk_of_fetch (if_pos hp)
    · have hd : (fetchCycle s (codeWord s.cfg.code (u32 s.pc))).fsmState = .decode := if_neg hp
      simp only [State.latchedOk, hd]
      exact mt (isPrint_iff _).mpr hp
  | decode hs hn =>
    simp only [State.latchedOk, hs] at hl
    obtain ⟨hop, rfl⟩ | ⟨hop, rfl⟩ | ⟨hop, rfl⟩ | ⟨hop, rfl⟩ := nextState_decode_cases hn
    · exact ⟨hop, fun hfn => hl ⟨hop, hfn⟩⟩
    · exact hop
    · exact ⟨hop, u32_branchTarget_mod_four hpc _⟩
    · exact hop
  | execute hs ha =>
    simp only [State.latchedOk, hs] at hl
    exact ⟨hl.1, (alu_isSome_iff _ _ _ _).mp (Option.isSome_of_eq_some ha)⟩
  | address hs hn =>
    obtain ⟨hop, rfl⟩ | ⟨hop, rfl⟩ := nextState_addressCompute_cases hn
    · exact hop
    · exact hop
  | read hs =>
    simp only [State.latchedOk, hs] at hl
    exact hl
  | _ => exact State.latchedOk_of_fetch rfl

/-- Settles O49: the invariant part by part, from what a cycle changes. -/
theorem clockKeepsInvariant : Obligations.ClockKeepsInvariant := by
  intro s t p h hclk
  have hc := clock_cycle h.encValid hclk
  obtain ⟨_, hregs⟩ := hc.regsChange
  obtain ⟨_, hmem⟩ := hc.memChange
  exact h.of_changes (clock_cfg h.encValid hclk) hc.snapshot_eq hc.fault_eq hregs hmem
    (hc.pc_mod_four h.latchedOk h.pcAligned) (hc.fsmOpcode_eq h.opcodeCopy) (hc.fsmFunct_eq h.functCopy)
    (hc.latchedOk h.latchedOk h.pcAligned)

/-- Settles O20: the case split by the state the cycle ran in. -/
theorem clockWritesStateOnlyInItsPlace : Obligations.ClockWritesStateOnlyInItsPlace := by
  intro s t p hv h
  have hc := clock_cycle hv h
  refine ⟨?_, ?_, clock_cfg hv h, hc.snapshot_eq, hc.fault_eq⟩
  · cases hc with
    | _ hs => rw [hs]; rfl
  · cases hc with
    | store hs hr =>
      rw [if_pos hs, ← byteAddr_eq_toNat hr]
      rfl
    | _ hs => exact (if_neg (by simp [hs])).symm

/-- Settles O21: `zero` and `alu_output` come from one ALU invocation. -/
theorem clockZeroFlagIsResultTest : Obligations.ClockZeroFlagIsResultTest := by
  intro s t p hv h
  rw [(clock_cycle hv h).zero_eq]
  rfl

/-- Settles O12: a changed register rules out every cycle but a write-back, and in it every register but the
destination. -/
theorem registerReadsLastWrite : Obligations.RegisterReadsLastWrite := by
  refine ⟨fun during id v s hid => ?_, fun id s t p hv h hne => ?_, fun id s => State.readReg_resetCore s id⟩
  · refine ⟨_, writeReg_ne hid during v s, ?_, fun j hj => ?_⟩
    · rw [State.readReg_setReg s hid, if_pos rfl]
    · rw [State.readReg_setReg s hid, if_neg hj]
  · have hdest {i : RegIx} (hc : RegsChange s t (some i)) : id = i := by
      by_contra hi
      exact hne (hc.readReg_eq fun he => hi (Option.some.inj he).symm)
    cases clock_cycle hv h with
    | writeResult hs hd => exact .inl ⟨hs, hdest (.write s.aluOutput hd rfl)⟩
    | writeLoaded hs hd => exact .inr ⟨hs, hdest (.write s.data hd rfl)⟩
    | _ => exact absurd (State.readReg_eq_of_regs_eq rfl id) hne

/-- Settles O24: in each control state that can raise, the state stopped in differs from `s` in the control state, the flag
and the record alone. -/
theorem faultRecordsAndWritesNothing : Obligations.FaultRecordsAndWritesNothing := by
  intro s f hv h
  obtain ⟨r, u, rfl, hr⟩ := clock_error_cases hv h
  cases hs : s.fsmState <;> simp only [hs] at hr
  all_goals
    obtain ⟨-, rfl, rfl⟩ := hr
    exact ⟨_, rfl, rfl, rfl, rfl, rfl, rfl, rfl, rfl⟩

/-! ### One instruction -/

/-- What an instruction with word `w` that completes does to `s`: the latches, `Fetch` and the advance are every
instruction's own; at most the register `dest`, the four bytes at `stored`, and one word of output change besides. -/
structure Retired (w : Word) (dest : Option RegIx) (stored : Option Nat) (printed : Option Word) (s t : State) : Prop where
  latched : t = { Claims.completed s w t.pc t.aluOutput t.data t.zero with regs := t.regs, mem := t.mem, out := t.out }
  regs : RegsChange s t dest
  mem : MemChange s t stored
  out : t.out = s.out ++ printed.toList
  pc : NextPc (s.pc + 4) t.pc

theorem rTypeEffect_retired {w result : Word} {rd : RegIx} {s t : State} (h : rTypeEffect w rd result s = .ok t) :
    Retired w (some rd) none none s t := by
  obtain ⟨hd, rfl⟩ := rTypeEffect_cases h
  exact ⟨rfl, .write result hd rfl, .keep rfl, (List.append_nil _).symm, .sequential⟩

theorem loadEffect_retired {w ea : Word} {rt : RegIx} {s t : State}
    (h : loadEffect rt ea (addressEffect w ea s) = .ok t) : Retired w (some rt) none none s t := by
  cases hr : dataInRange s.cfg.memSize ea with
  | false => rw [loadEffect_outOfRange (s3 := addressEffect w ea s) hr] at h; cases h
  | true =>
    by_cases hd : rt = 0
    · rw [hd, loadEffect_zero (s3 := addressEffect w ea s) hr] at h; cases h
    · rw [loadEffect_ok hd (s3 := addressEffect w ea s) hr] at h
      cases h
      exact ⟨rfl, .write _ hd rfl, .keep rfl, (List.append_nil _).symm, .sequential⟩

theorem storeEffect_retired {w v ea : Word} {s t : State} (h : storeEffect v ea (addressEffect w ea s) = .ok t) :
    Retired w none (some (byteAddr ea)) none s t := by
  cases hr : dataInRange s.cfg.memSize ea with
  | false => rw [storeEffect_outOfRange (s3 := addressEffect w ea s) hr] at h; cases h
  | true =>
    rw [storeEffect_ok (s3 := addressEffect w ea s) hr] at h
    cases h
    exact ⟨rfl, .keep rfl, .store v (byteAddr_of_dataInRange hr).2 rfl, (List.append_nil _).symm, .sequential⟩

/-- The operands a branch compares are not looked at: they choose only between the two PCs. -/
theorem branchEffect_retired (w : Word) (imm8 : BitVec 8) (a b : Word) (negate : Bool) (s : State) :
    Retired w none none none s (branchEffect w imm8 a b negate s) := by
  refine ⟨rfl, .keep rfl, .keep rfl, (List.append_nil _).symm, ?_⟩
  simp only [branchEffect]
  split
  · exact .branch imm8
  · exact .sequential

/-- Every instruction that completes, by the effect its meaning uses. -/
theorem exec_retired {i : Instr} {s t : State} (h : exec i s = .next t) :
    Retired (encode s.cfg.enc i) i.destReg (storeAddr i s) (printedBy i s) s t := by
  cases i with
  | add | sub | and | or | nor | slt => exact rTypeEffect_retired (outcome_next_iff.mp h)
  | lw => exact loadEffect_retired (outcome_next_iff.mp h)
  | sw => exact storeEffect_retired (outcome_next_iff.mp h)
  | beq | bne => cases h; exact branchEffect_retired ..
  | print => cases h; exact ⟨rfl, .keep rfl, .keep rfl, rfl, .sequential⟩
  | j addr26 => cases h; exact ⟨rfl, .keep rfl, .keep rfl, (List.append_nil _).symm, .jump addr26⟩

section
variable {w : Word} {dest : Option RegIx} {stored : Option Nat} {printed : Option Word} {s t : State}

theorem Retired.cfg_eq (h : Retired w dest stored printed s t) : t.cfg = s.cfg := (congrArg State.cfg h.latched :)
theorem Retired.snapshot_eq (h : Retired w dest stored printed s t) : t.snapshot = s.snapshot :=
  (congrArg State.snapshot h.latched :)
theorem Retired.fault_eq (h : Retired w dest stored printed s t) : t.fault = s.fault := (congrArg State.fault h.latched :)
theorem Retired.fsmState_eq (h : Retired w dest stored printed s t) : t.fsmState = .fetch :=
  congrArg State.fsmState h.latched
theorem Retired.ir_eq (h : Retired w dest stored printed s t) : t.ir = w := congrArg State.ir h.latched
theorem Retired.fsmOpcode_eq (h : Retired w dest stored printed s t) : t.fsmOpcode = opcodeField w :=
  congrArg State.fsmOpcode h.latched
theorem Retired.fsmFunct_eq (h : Retired w dest stored printed s t) : t.fsmFunct = functField w :=
  congrArg State.fsmFunct h.latched
theorem Retired.operandA_eq (h : Retired w dest stored printed s t) : t.operandA = s.readReg (rsField w) :=
  congrArg State.operandA h.latched
theorem Retired.operandB_eq (h : Retired w dest stored printed s t) : t.operandB = s.readReg (rtField w) :=
  congrArg State.operandB h.latched

end

/-- Settles O36: the frame read off from `Retired`. -/
theorem instructionFrame : Obligations.InstructionFrame := by
  intro i s t hwf he
  have h := exec_retired he
  exact ⟨fun r hr => h.regs.readReg_eq hr, fun a ha => h.mem.read_eq hwf ha, h.out, h.cfg_eq, h.snapshot_eq, h.fault_eq,
    h.fsmState_eq, h.ir_eq, h.fsmOpcode_eq, h.fsmFunct_eq, h.operandA_eq, h.operandB_eq⟩

theorem exec_keeps_inv {i : Instr} {s t : State} (h : s.Inv) (he : exec i s = .next t) : t.Inv := by
  have hi := exec_retired he
  exact h.of_changes hi.cfg_eq hi.snapshot_eq hi.fault_eq hi.regs hi.mem
    (hi.pc.mod_four (u32_add_four_mod_four h.pcAligned)) (hi.ir_eq ▸ hi.fsmOpcode_eq) (hi.ir_eq ▸ hi.fsmFunct_eq)
    (State.latchedOk_of_fetch hi.fsmState_eq)

theorem clocksToFetch_keeps_inv {n : Nat} {s t : State} (h : s.Inv) (hc : clocksToFetch n s = .ok t) : t.Inv := by
  induction n generalizing s with
  | zero => cases hc; exact h
  | succ n ih =>
    cases hk : clock s with
    | error f => rw [clocksToFetch_succ_error hk] at hc; cases hc
    | ok r =>
      have hi : r.1.Inv := clockKeepsInvariant s r.1 r.2 h hk
      rw [clocksToFetch_succ_ok hk] at hc
      split at hc
      · cases hc; exact hi
      · exact ih hi hc

/-- A step that answers a next state ran an instruction or clocked the datapath back to `Fetch`. -/
theorem step_next_cases {s t : State} (h : step s = .next t) :
    (∃ i, fetchInstr s = some i ∧ exec i s = .next t) ∨ (fetchInstr s = none ∧ clocksToFetch 5 s = .ok t) := by
  unfold step at h
  cases hf : s.fault with
  | some r => rw [hf] at h; cases h
  | none =>
    rw [hf] at h
    cases hi : fetchInstr s with
    | some i => rw [hi] at h; exact .inl ⟨i, rfl, h⟩
    | none => rw [hi] at h; exact .inr ⟨rfl, outcome_next_iff.mp h⟩

/-- Settles O50: an instruction by its `Retired` facts, any other step cycle by cycle. -/
theorem stepKeepsInvariant : Obligations.StepKeepsInvariant := by
  intro s t h hstep
  obtain ⟨i, -, he⟩ | ⟨-, hc⟩ := step_next_cases hstep
  · exact exec_keeps_inv h he
  · exact clocksToFetch_keeps_inv h hc

/-! ### Register 0 -/

/-- Settles O11. -/
theorem registerZeroWriteIsFatal : Obligations.RegisterZeroWriteIsFatal :=
  ⟨fun during v s => ⟨_, writeReg_zero during v s, rfl⟩, State.readReg_zero⟩

/-! ### Construction and reset -/

theorem codeOk_iff (c : Config) : c.codeOk = true ↔ c.code.length % 4 = 0 ∧ c.code.length < 2 ^ 32 := by
  simp only [Config.codeOk, Bool.and_eq_true, decide_eq_true_eq]

theorem imageOk_iff (c : Config) : c.imageOk = true ↔ c.initMem.length ≤ c.memSize := decide_eq_true_iff

/-- The image a valid configuration gives fits the data memory (00_scope.md R9; 10_state.md R37). -/
theorem below_image_of_valid {c : Config} (h : c.Valid) : Memory.below c.memSize (imageFrom 0 c.initMem) := by
  obtain ⟨-, -, -, himg⟩ := h
  exact below_imageFrom ((Nat.zero_add _).trans_le ((imageOk_iff c).mp himg))

theorem fresh_inv {c : Config} (h : c.Valid) : (State.fresh c).Inv where
  cfgValid := h
  noFault := rfl
  regZero := rfl
  pcAligned := rfl
  memWf := wf_imageFrom 0 c.initMem
  memBelow := below_image_of_valid h
  snapshotImage := rfl
  opcodeCopy := show (0 : BitVec 6) = opcodeField 0 by decide
  functCopy := rfl
  latchedOk := State.latchedOk_of_fetch rfl

/-- `reset()` loads the memory from the snapshot, which is the construction image. -/
theorem resetCore_inv {s : State} (h : s.Inv) : s.resetCore.Inv where
  cfgValid := h.cfgValid
  noFault := h.noFault
  regZero := rfl
  pcAligned := rfl
  memWf := by rw [State.resetCore_mem, h.snapshotImage]; exact wf_imageFrom 0 s.cfg.initMem
  memBelow := by rw [State.resetCore_mem, h.snapshotImage]; exact below_image_of_valid h.cfgValid
  snapshotImage := h.snapshotImage
  opcodeCopy := h.opcodeCopy
  functCopy := h.functCopy
  latchedOk := State.latchedOk_of_fetch rfl

/-- Settles O47: the two checks of `construct`, the stream's first. -/
theorem constructionGivesInvariantOrRefuses : Obligations.ConstructionGivesInvariantOrRefuses := by
  intro c
  refine ⟨fun hv => ?_, fun hcode => ?_, fun hcode himg => ?_⟩
  · have ⟨_, _, hcode, himg⟩ := hv
    exact ⟨by rw [construct, if_pos hcode, if_pos himg], fresh_inv hv⟩
  · rw [construct, if_neg (mt (codeOk_iff c).mp hcode)]
  · rw [construct, if_pos ((codeOk_iff c).mpr hcode), if_neg (mt (imageOk_iff c).mp (Nat.not_le.mpr himg))]

/-- Settles O46. -/
theorem resetStateHasInvariant : Obligations.ResetStateHasInvariant := fresh_inv (by decide)

theorem hostReset_of_noFault {s : State} (h : s.fault = none) : hostReset s = .next s.resetCore := by
  unfold hostReset
  rw [h]

/-- Settles O56. -/
theorem hostResetKeepsInvariant : Obligations.HostResetKeepsInvariant :=
  fun _ h => ⟨_, hostReset_of_noFault h.noFault, resetCore_inv h⟩

/-- Settles O52: the state is `resetCore`'s, and a second `resetCore` is the first. -/
theorem resetSetsAndIsIdempotent : Obligations.ResetSetsAndIsIdempotent := by
  intro s h
  exact ⟨_, hostReset_of_noFault h, rfl, rfl, State.readReg_resetCore s, rfl, rfl, rfl, rfl, rfl, rfl, rfl, rfl, rfl,
    rfl, rfl, rfl, h, hostReset_of_noFault (s := s.resetCore) h⟩

end Sys2Proof.Machine

/-! PROOFS. The statements of the family 20_memory.md: reads and writes of the data memory byte by byte, the image that
construction loads, and the word of the instruction stream that a step in `Fetch` runs. -/

namespace Sys2Proof.Machine

/-! ### Addresses -/

/-- The statements' legal addresses are those `check_data_range` passes (20_memory.md R54). -/
theorem legal_iff_dataInRange {s : State} {addr : Word} :
    Claims.legal s addr ↔ dataInRange s.cfg.memSize addr = true := by
  simp only [Claims.legal, dataInRange, Bool.and_eq_true, decide_eq_true_eq]

theorem dataInRange_eq_false_of_not_legal {s : State} {addr : Word} (h : ¬Claims.legal s addr) :
    dataInRange s.cfg.memSize addr = false :=
  Bool.eq_false_iff.mpr (mt legal_iff_dataInRange.mpr h)

theorem memRead_of_legal {s : State} {addr : Word} (h : Claims.legal s addr) :
    memRead addr s = .ok (s.mem.readWord addr.toNat) := by
  have hr := legal_iff_dataInRange.mp h
  rw [memRead_inRange hr, byteAddr_eq_toNat hr]

theorem memWrite_of_legal {s : State} {addr : Word} (h : Claims.legal s addr) (v : Word) :
    memWrite addr v s = .ok (s.storeWord addr.toNat v) := by
  have hr := legal_iff_dataInRange.mp h
  rw [memWrite_inRange hr, byteAddr_eq_toNat hr]

/-! ### A word in memory, byte by byte -/

/-- Byte `k` of a stored word, the most significant first, is at offset `k` (R53). -/
theorem Memory.read_writeWord_inside {m : Memory} (hm : m.wf) (a : Nat) (v : Word) {k : Nat} (hk : k < 4) :
    (m.writeWord a v).read (a + k) = v.extractLsb' (24 - 8 * k) 8 := by
  rw [Memory.read_writeWord hm]
  interval_cases k <;> simp

theorem Memory.read_writeWord_outside {m : Memory} (hm : m.wf) {a b : Nat} (h : b < a ∨ a + 4 ≤ b) (v : Word) :
    (m.writeWord a v).read b = m.read b := by
  rw [Memory.read_writeWord hm, if_neg (by omega), if_neg (by omega), if_neg (by omega), if_neg (by omega)]

/-- Byte `k` of a word read, the most significant first, is the byte at offset `k` (R52). -/
theorem Memory.extractLsb'_readWord (m : Memory) (a : Nat) {k : Nat} (hk : k < 4) :
    (m.readWord a).extractLsb' (24 - 8 * k) 8 = m.read (a + k) := by
  have hbytes : bytesOfWord (m.readWord a) = [m.read a, m.read (a + 1), m.read (a + 2), m.read (a + 3)] :=
    bytesOfWord_wordOfBytes _ _ _ _
  simp only [bytesOfWord, List.cons.injEq, and_true] at hbytes
  obtain ⟨h0, h1, h2, h3⟩ := hbytes
  interval_cases k
  · exact h0
  · exact h1
  · exact h2
  · exact h3

/-- Settles O13: `fourBytes` is the word `MemRead` puts together. -/
theorem memReadIsBigEndian : Obligations.MemReadIsBigEndian := fun _ _ =>
  ⟨memRead_of_legal, fun h => ⟨_, memRead_outOfRange (dataInRange_eq_false_of_not_legal h), rfl⟩⟩

/-- Settles O14: the stored word byte by byte, inside and outside its four addresses. -/
theorem memWriteStoresFourBytes : Obligations.MemWriteStoresFourBytes := by
  intro addr v s hwf
  refine ⟨fun h => ⟨_, memWrite_of_legal h v, ?_, ?_, ?_, ?_, ?_, rfl⟩, fun h => ?_⟩
  · exact Memory.read_writeWord_inside hwf addr.toNat v (k := 0) (by decide)
  · exact Memory.read_writeWord_inside hwf addr.toNat v (k := 1) (by decide)
  · exact Memory.read_writeWord_inside hwf addr.toNat v (k := 2) (by decide)
  · exact Memory.read_writeWord_inside hwf addr.toNat v (k := 3) (by decide)
  · exact fun a ha => Memory.read_writeWord_outside hwf ha v
  · exact ⟨_, memWrite_outOfRange (dataInRange_eq_false_of_not_legal h) v, rfl⟩

/-- Settles O15: byte `k` of the read lies inside the write at offset `b + k - a`, or outside it. The source's example is
evaluated. -/
theorem overlappingReadSeesLatestBytes : Obligations.OverlappingReadSeesLatestBytes := by
  refine ⟨fun a b v s t hwf ha hb hw => ?_, _, rfl, rfl, rfl⟩
  rw [memWrite_of_legal ha] at hw
  cases hw
  refine ⟨_, memRead_of_legal (s := s.storeWord a.toNat v) hb, fun k hk => ?_⟩
  rw [Memory.extractLsb'_readWord _ _ hk, State.storeWord_mem]
  split
  case isTrue hin =>
    have hoff : b.toNat + k = a.toNat + (b.toNat + k - a.toNat) := by omega
    rw [hoff, Memory.read_writeWord_inside hwf _ _ (by omega), ← hoff]
  case isFalse hout => exact Memory.read_writeWord_outside hwf (by omega) v

/-- Settles O48: the image is loaded at address 0, so address `a` holds its byte `a`. -/
theorem constructionLoadsImage : Obligations.ConstructionLoadsImage := by
  refine fun c a => ⟨?_, rfl⟩
  rw [State.fresh_mem, read_imageFrom, if_pos (Nat.zero_le a), Nat.sub_zero]
  split
  case isTrue h => exact List.getD_eq_getElem _ _ h
  case isFalse h => exact List.getD_eq_default _ _ (Nat.not_lt.mp h)

/-! ### The word a step in `Fetch` runs -/

theorem codeByte_add (code : List Byte) (n k : Nat) : codeByte code (n + k) = (code.drop n).getD k 0 := by
  simp only [codeByte, List.getD_eq_getElem?_getD, List.getElem?_drop]

/-- Four bytes at offset `n` of the stream lie in it and make the word there (20_memory.md R56). -/
theorem codeWord_of_drop_eq {code rest : List Byte} {n : Nat} {b0 b1 b2 b3 : Byte}
    (h : code.drop n = b0 :: b1 :: b2 :: b3 :: rest) :
    n + 4 ≤ code.length ∧ codeWord code n = wordOfBytes b0 b1 b2 b3 := by
  constructor
  · have hlen := congrArg List.length h
    simp only [List.length_drop, List.length_cons] at hlen
    omega
  · have h0 := codeByte_add code n 0
    rw [Nat.add_zero] at h0
    rw [codeWord, h0, codeByte_add, codeByte_add, codeByte_add, h]
    rfl

/-- Bytes at the PC that decode are the instruction fetched. -/
theorem fetchInstr_of_decode {s : State} {i : Instr} {rest : List Byte} (hs : s.fsmState = .fetch)
    (h : decode s.cfg.enc (s.cfg.code.drop (u32 s.pc)) = .ok (i, rest)) : fetchInstr s = some i := by
  obtain ⟨b0, b1, b2, b3, hbytes, hi⟩ := decode_cases h
  obtain ⟨hr, hw⟩ := codeWord_of_drop_eq hbytes
  have hin : fetchInRange s.pc s = true := decide_eq_true hr
  unfold fetchInstr
  rw [if_pos hs, if_pos hin, hw, hi]

theorem fetchInstr_pastEnd {s : State} (h : fetchInRange s.pc s = false) : fetchInstr s = none := by
  unfold fetchInstr
  rw [h]
  exact ite_self none

theorem step_of_fetchInstr_some {s : State} {i : Instr} (hf : s.fault = none) (hi : fetchInstr s = some i) :
    step s = exec i s := by
  unfold step
  rw [hf, hi]

theorem step_of_fetchInstr_none {s : State} (hf : s.fault = none) (hi : fetchInstr s = none) :
    step s = outcome (finishInstr s) := by
  unfold step
  rw [hf, hi]

/-- Settles O38: the four bytes the decoder takes are the word `Fetch` reads. -/
theorem stepRunsDecodedInstr : Obligations.StepRunsDecodedInstr :=
  fun _ _ _ hf hs hd => step_of_fetchInstr_some hf (fetchInstr_of_decode hs hd)

/-- Settles O44: nothing is fetched, and the first cycle raises. -/
theorem fetchPastEndStops : Obligations.FetchPastEndStops := by
  intro s hf hs hlen
  have hr : fetchInRange s.pc s = false := decide_eq_false (Nat.not_le.mpr hlen)
  have hraise : finishInstr s = raise (.fetchOutOfRange s.pc) { s with fsmState := .decode } :=
    clocksToFetch_succ_error (clock_fetch_pastEnd hs hr)
  refine ⟨{ s with fsmState := .decode, fault := some (.fetchOutOfRange s.pc) }, ?_, rfl, rfl, rfl, rfl⟩
  rw [step_of_fetchInstr_none hf (fetchInstr_pastEnd hr), hraise]
  rfl

end Sys2Proof.Machine

/-! PROOFS. The statements of the family 30_encoding.md: decoding and encoding undo each other, which words are illegal and
where a step at one stops, and what the ignored bits can change. -/

namespace Sys2Proof

/-! ### Encoding and decoding undo each other (30_encoding.md R70 to R79) -/

/-- The word of an instruction decodes to it: a valid `ENC` keeps the opcodes, and the function codes, apart. -/
theorem decodeWord_encode {e : Enc} (he : e.Valid) (i : Instr) : decodeWord e (encode e i) = .ok i := by
  cases i with
  | add | sub | and | or | nor | slt | print =>
    rw [encode, decodeWord_eq_rType (opcodeField_encodeRType ..)]
    simp [decodeRType, he.functs_ne]
  | lw | sw | beq | bne | j => simp [encode, decodeWord, he.opcodes_ne]

/-- Settles O1: the bytes make the word again, and the word decodes to the instruction. -/
theorem decodeOfEncodeReturnsInstr : Obligations.DecodeOfEncodeReturnsInstr := by
  intro e i rest he
  rw [decode_bytesOfWord, decodeWord_encode he]

/-- Each branch of the decoder keeps the opcode, or the function code, it tested and every other field of the word. -/
theorem encode_of_decodeRType {e : Enc} {w : Word} {i : Instr} (h0 : opcodeField w = 0) (h : decodeRType e w = .ok i) :
    encode e i = w := by
  have hfields := encodeRType_fields h0
  unfold decodeRType at h
  split_ifs at h with hf hf hf hf hf hf hf <;> cases h <;> rw [encode, ← hf, hfields]

theorem encode_of_decodeWord {e : Enc} {w : Word} {i : Instr} (h : decodeWord e w = .ok i) : encode e i = w := by
  have hiType := encodeIType_fields w
  unfold decodeWord at h
  split_ifs at h with h0 hj hop hop hop hop
  · exact encode_of_decodeRType h0 h
  · cases h
    rw [encode, ← hj, encodeJType_fields]
  all_goals
    cases h
    rw [encode, ← hop, hiType]

/-- Settles O2: the four bytes are those of the word they make, which is the word of the instruction. -/
theorem encodeOfDecodeReturnsBytes : Obligations.EncodeOfDecodeReturnsBytes := by
  intro e bs rest i h
  obtain ⟨b0, b1, b2, b3, rfl, hw⟩ := decode_cases h
  rw [encode_of_decodeWord hw, bytesOfWord_wordOfBytes]
  rfl

/-! ### Illegal words (30_encoding.md R79, R81, R82) -/

/-- An R-type word is refused when every test for a function code fails; each test that holds names a code of the list. -/
theorem decodeRType_eq_error_iff {e : Enc} {w : Word} {r : Reject} :
    decodeRType e w = .error r ↔ functField w ∉ 0 :: e.functs ∧ r = .illegalFunct (functField w) := by
  simp only [decodeRType, Enc.functs, List.mem_cons, List.not_mem_nil, or_false]
  split_ifs <;> simp_all [eq_comm (a := r)]

/-- The two verdicts of `classify` on a word that is no instruction, and no third. -/
theorem decodeWord_eq_error_iff {e : Enc} {w : Word} {r : Reject} :
    decodeWord e w = .error r ↔
      (opcodeField w ∉ 0 :: e.opcodes ∧ r = .illegalOpcode (opcodeField w)) ∨
      (opcodeField w = 0 ∧ functField w ∉ 0 :: e.functs ∧ r = .illegalFunct (functField w)) := by
  by_cases h0 : opcodeField w = 0
  · rw [decodeWord_eq_rType h0, decodeRType_eq_error_iff]
    simp [h0]
  · simp only [decodeWord, h0, if_false, Enc.opcodes, List.mem_cons, List.not_mem_nil, or_false, false_or, false_and]
    split_ifs <;> simp_all [eq_comm (a := r)]

theorem decodeWord_eq_illegalOpcode_iff {e : Enc} {w : Word} {op : BitVec 6} :
    decodeWord e w = .error (.illegalOpcode op) ↔ opcodeField w ∉ 0 :: e.opcodes ∧ op = opcodeField w := by
  simp only [decodeWord_eq_error_iff, Reject.illegalOpcode.injEq, reduceCtorEq, and_false, or_false]

theorem decodeWord_eq_illegalFunct_iff {e : Enc} {w : Word} {fn : BitVec 6} :
    decodeWord e w = .error (.illegalFunct fn) ↔
      (opcodeField w = 0 ∧ functField w ∉ 0 :: e.functs) ∧ fn = functField w := by
  simp only [decodeWord_eq_error_iff, Reject.illegalFunct.injEq, reduceCtorEq, and_false, false_or, and_assoc]

theorem decodeWord_ne_truncated (e : Enc) (w : Word) : decodeWord e w ≠ .error .truncated := by
  simp only [ne_eq, decodeWord_eq_error_iff, reduceCtorEq, and_false, or_false, not_false_eq_true]

/-- Settles O3: the two verdicts, each with its code. -/
theorem illegalWordsAreRefusedByName : Obligations.IllegalWordsAreRefusedByName := by
  intro e w
  refine ⟨⟨?_, ?_⟩, ⟨?_, ?_⟩, ?_, ?_, decodeWord_ne_truncated e w⟩
  · exact fun ⟨_, h⟩ => (decodeWord_eq_illegalOpcode_iff.mp h).1
  · exact fun h => ⟨_, decodeWord_eq_illegalOpcode_iff.mpr ⟨h, rfl⟩⟩
  · exact fun ⟨_, h⟩ => (decodeWord_eq_illegalFunct_iff.mp h).1
  · exact fun h => ⟨_, decodeWord_eq_illegalFunct_iff.mpr ⟨h, rfl⟩⟩
  · exact fun _ h => (decodeWord_eq_illegalOpcode_iff.mp h).2
  · exact fun _ h => (decodeWord_eq_illegalFunct_iff.mp h).2

/-- Settles O4: nine fixed words, evaluated. -/
theorem specWordsDecode : Obligations.SpecWordsDecode := by
  unfold Obligations.SpecWordsDecode
  decide

end Sys2Proof

namespace Sys2Proof.Machine

/-! ### The ignored bits (30_encoding.md R83)

The ignored bits reach only the word, and the word reaches only the latches, which are not visible (10_state.md R43). So what
is seen of each shared effect is the same for any two words. -/

theorem seen_rTypeEffect (w w' : Word) (rd : RegIx) (result : Word) (s : State) :
    seen (outcome (rTypeEffect w rd result s)) = seen (outcome (rTypeEffect w' rd result s)) := by
  by_cases hd : rd = 0
  · subst hd
    rfl
  · rw [rTypeEffect_ok hd, rTypeEffect_ok hd]
    rfl

theorem seen_loadEffect (w w' : Word) (rt : RegIx) (ea : Word) (s : State) :
    seen (outcome (loadEffect rt ea (addressEffect w ea s))) =
      seen (outcome (loadEffect rt ea (addressEffect w' ea s))) := by
  cases hr : dataInRange s.cfg.memSize ea with
  | false =>
    rw [loadEffect_outOfRange (s3 := addressEffect w ea s) hr, loadEffect_outOfRange (s3 := addressEffect w' ea s) hr]
    rfl
  | true =>
    by_cases ht : rt = 0
    · subst ht
      rw [loadEffect_zero (s3 := addressEffect w ea s) hr, loadEffect_zero (s3 := addressEffect w' ea s) hr]
      rfl
    · rw [loadEffect_ok ht (s3 := addressEffect w ea s) hr, loadEffect_ok ht (s3 := addressEffect w' ea s) hr]
      rfl

theorem seen_storeEffect (w w' : Word) (v ea : Word) (s : State) :
    seen (outcome (storeEffect v ea (addressEffect w ea s))) =
      seen (outcome (storeEffect v ea (addressEffect w' ea s))) := by
  cases hr : dataInRange s.cfg.memSize ea with
  | false =>
    rw [storeEffect_outOfRange (s3 := addressEffect w ea s) hr, storeEffect_outOfRange (s3 := addressEffect w' ea s) hr]
    rfl
  | true =>
    rw [storeEffect_ok (s3 := addressEffect w ea s) hr, storeEffect_ok (s3 := addressEffect w' ea s) hr]
    rfl

/-- Settles O5: clearing the ignored bits changes the word alone. BEQ, BNE and PRINT always complete, and J ignores no bit. -/
theorem ignoredBitsChangeNothingVisible : Obligations.IgnoredBitsChangeNothingVisible := by
  intro i s
  cases i with
  | add | sub | and | or | nor | slt => exact seen_rTypeEffect ..
  | lw => exact seen_loadEffect ..
  | sw => exact seen_storeEffect ..
  | print | beq | bne | j => rfl

/-! ### A step at an illegal word (60_exceptions.md R211, R212) -/

/-- No instruction is fetched where the word is illegal. -/
theorem fetchInstr_of_illegal {s : State} {r : Reject}
    (h : decodeWord s.cfg.enc (codeWord s.cfg.code (u32 s.pc)) = .error r) : fetchInstr s = none := by
  unfold fetchInstr
  rw [h]
  split_ifs <;> rfl

/-- A step that runs no instruction stops by what the cycle after `k` completed ones raises. -/
theorem step_of_leads_raise {s u v : State} {k : Nat} {r : FaultRecord} (hf : s.fault = none) (hi : fetchInstr s = none)
    (hl : Leads k s u) (hk : k < 5) (hr : clock u = raise r v) :
    step s = .fault (r.stop { v with fault := some r }) := by
  obtain ⟨n, hn⟩ : ∃ n, 5 = n + 1 + k := ⟨4 - k, by omega⟩
  have hfinish : finishInstr s = raise r v :=
    calc clocksToFetch 5 s = clocksToFetch (n + 1) u := hn ▸ hl.clocksToFetch_add (n + 1)
      _ = raise r v := clocksToFetch_succ_error hr
  rw [step_of_fetchInstr_none hf hi, hfinish, outcome_raise]

/-- Settles O42: `Fetch` completes, and `Decode` raises. -/
theorem illegalOpcodeStopsInDecode : Obligations.IllegalOpcodeStopsInDecode := by
  intro s op _ hf hs hlen hw
  obtain ⟨hop, rfl⟩ := decodeWord_eq_illegalOpcode_iff.mp hw
  have hl := leads_issued hs (decide_eq_true hlen) rfl fun h => hop (h.1 ▸ List.mem_cons_self)
  have hraise := clock_decode_unknown (s := issued s (codeWord s.cfg.code (u32 s.pc))) rfl
    ((nextState_decode_eq_none_iff _ _).mpr hop)
  exact ⟨_, step_of_leads_raise hf (fetchInstr_of_illegal hw) hl (by decide) hraise, rfl, rfl, rfl, rfl, rfl, rfl⟩

/-- The branch target as an offset of `4 * imm8` bytes (43_control_transfer.md R180). -/
theorem branchTarget_eq_add (pc : Word) (imm8 : BitVec 8) :
    branchTarget pc imm8 = pc + BitVec.ofNat 32 (4 * imm8.toNat) := by
  rw [branchTarget, ← u32_immShift2Of, BitVec.ofNat_toNat, BitVec.setWidth_eq]

theorem alu_eq_none_iff (e : Enc) (a b : Word) (f : BitVec 6) : alu e a b f = none ↔ f ∉ e.functs := by
  rw [← alu_isSome_iff e a b f, Option.not_isSome_iff_eq_none]

/-- Settles O43: `Fetch` and `Decode` complete, and the ALU of `RTypeExecute` raises. -/
theorem illegalFunctStopsInExecute : Obligations.IllegalFunctStopsInExecute := by
  intro s fn _ hf hs hlen hw
  obtain ⟨⟨h0, hfn⟩, rfl⟩ := decodeWord_eq_illegalFunct_iff.mp hw
  have hl := leads_decoded hs (decide_eq_true hlen) rfl (st := .rTypeExecute) (fun h => hfn (h.2 ▸ List.mem_cons_self))
    (if_pos h0)
  have hraise := clock_rTypeExecute_unknown (s := probeCycle (issued s (codeWord s.cfg.code (u32 s.pc))) .rTypeExecute
    (branchTarget (s.pc + 4) (imm8Field (codeWord s.cfg.code (u32 s.pc))))) rfl
    ((alu_eq_none_iff ..).mpr fun h => hfn (List.mem_cons_of_mem _ h))
  exact ⟨_, _, hl.clocks_add 0, rfl, hraise, step_of_leads_raise hf (fetchInstr_of_illegal hw) hl (by decide) hraise,
    rfl, rfl, rfl, branchTarget_eq_add .., rfl, rfl, rfl, rfl, rfl⟩

end Sys2Proof.Machine

/-! PROOFS. The statements of the family 40_datapath.md: what a cycle does to the PC, the latches, the output and the control
state, and that an instruction's meaning is what the datapath's cycles compute. -/

namespace Sys2Proof.Machine

/-! ### One cycle, by control state (40_datapath.md R112, R117 to R125) -/

/-- The instruction latch is enabled in `Fetch` alone (40_datapath.md R101 to R111). -/
theorem decision_irWrite_iff (e : Enc) (st : FsmState) (op : BitVec 6) :
    (decision e st op).irWrite = true ↔ st = .fetch := by
  cases st <;> simp [decision, idleDecision]

/-- A `Fetch` cycle that completes found its word in the stream (20_memory.md R58). -/
theorem fetchInRange_of_clock {s t : State} {p : ClkPorts} (hs : s.fsmState = .fetch) (h : clock s = .ok (t, p)) :
    fetchInRange s.pc s = true := by
  by_contra hr
  rw [clock_fetch_pastEnd hs (Bool.eq_false_iff.mpr hr)] at h
  cases h

theorem clock_running {s t : State} {p : ClkPorts} (hv : s.cfg.enc.Valid) (h : clock s = .ok (t, p)) :
    p.running = t.running := (clock_ok_cases hv h).1

theorem State.running_eq_false_iff (s : State) :
    s.running = false ↔ s.cfg.code.length ≤ u32 s.pc ∧ s.fsmState = .fetch := by
  simp only [State.running, Bool.not_eq_false', Bool.and_eq_true, decide_eq_true_eq]

/-- Settles O22: the port is `running` of the state left, whose stream is still that of `s`. -/
theorem clockReturnsFalseAtTheEnd : Obligations.ClockReturnsFalseAtTheEnd := by
  intro s t p hv h
  rw [clock_running hv h, State.running_eq_false_iff, clock_cfg hv h]

/-- Settles O16: where the PC moves unconditionally, or not at all, the enable is a constant; in `Branch` it is the test. -/
theorem clockWritesPcWhenEnabled : Obligations.ClockWritesPcWhenEnabled := by
  intro s t p hv h
  cases clock_cycle hv h with
  | branch hs => simp [hs, decision, idleDecision, branchCycle, probeCycle, branchTest]
  | _ hs => rw [hs]; rfl

/-- No cycle but `Fetch` changes the instruction latch, the FSM's copies or the operands (R117). -/
theorem Cycle.latches_eq {s t : State} (h : Cycle s t) (hs : s.fsmState ≠ .fetch) :
    t.ir = s.ir ∧ t.fsmOpcode = s.fsmOpcode ∧ t.fsmFunct = s.fsmFunct ∧ t.operandA = s.operandA ∧
      t.operandB = s.operandB := by
  cases h with
  | fetch hf => exact absurd hf hs
  | _ => exact ⟨rfl, rfl, rfl, rfl, rfl⟩

/-- Settles O17: the latch is enabled in `Fetch` alone. -/
theorem clockLatchesInstructionAndOperands : Obligations.ClockLatchesInstructionAndOperands := by
  intro s t p hv h
  have hc := clock_cycle hv h
  refine ⟨fun hir => ?_, fun hir => hc.latches_eq fun hs => ?_⟩
  · have hs := (decision_irWrite_iff ..).mp hir
    cases hc with
    | fetch _ => exact ⟨_, instrRead_inRange (fetchInRange_of_clock hs h), rfl, rfl, rfl, rfl, rfl⟩
    | _ hs' => simp [hs] at hs'
  · rw [(decision_irWrite_iff ..).mpr hs] at hir
    cases hir

@[simp] theorem fetchCycle_ir (s : State) (w : Word) : (fetchCycle s w).ir = w := rfl
@[simp] theorem fetchCycle_operandA (s : State) (w : Word) : (fetchCycle s w).operandA = s.readReg (rsField w) := rfl
@[simp] theorem fetchCycle_out (s : State) (w : Word) :
    (fetchCycle s w).out = if isPrint w then s.out ++ [s.readReg (rsField w)] else s.out := rfl

/-- The word a cycle gives to the output: `operand_a`, just latched, when `Fetch` latches a PRINT, and none otherwise
(R118; 60_exceptions.md R236). -/
theorem clock_printed {s t : State} {p : ClkPorts} (hv : s.cfg.enc.Valid) (h : clock s = .ok (t, p)) :
    p.printed = if s.fsmState = .fetch ∧ isPrint t.ir then some t.operandA else none := by
  have hr := (clock_ok_cases hv h).2
  cases hs : s.fsmState <;> simp only [hs] at hr
  case fetch =>
    obtain ⟨-, rfl, hp⟩ := hr
    simpa using hp
  all_goals simp [hr]

/-- The output grows by the word printed, if any. -/
theorem clock_out {s t : State} {p : ClkPorts} (hv : s.cfg.enc.Valid) (h : clock s = .ok (t, p)) :
    t.out = s.out ++ p.printed.toList := by
  rw [clock_printed hv h]
  cases clock_cycle hv h with
  | fetch hs =>
    simp only [fetchCycle_out, fetchCycle_ir, fetchCycle_operandA, hs, true_and]
    split <;> simp
  | _ hs => simp [hs]; rfl

/-- Settles O18: the escape is the case where `Fetch` latches a PRINT. -/
theorem printEscapesToFetch : Obligations.PrintEscapesToFetch := by
  intro s t p hv h d
  have hescape : (d.irWrite = true ∧ t.ir.extractLsb' 26 6 = 0 ∧ t.ir.extractLsb' 0 6 = 0) ↔
      s.fsmState = .fetch ∧ isPrint t.ir = true :=
    and_congr (decision_irWrite_iff ..) (isPrint_iff t.ir).symm
  have hout := clock_out hv h
  have hprinted := clock_printed hv h
  rw [hescape]
  refine ⟨fun hp => ?_, fun hp => ?_⟩
  · rw [if_pos hp] at hprinted
    rw [hprinted] at hout
    cases clock_cycle hv h with
    | fetch _ => exact ⟨hout, if_pos hp.2, rfl, rfl, rfl, rfl, rfl, hprinted⟩
    | _ hs => simp [hs] at hp
  · rw [if_neg hp] at hprinted
    rw [hprinted] at hout
    exact ⟨hout.trans (List.append_nil _), hprinted⟩

/-- Settles O19: `Decode` and `ITypeAddressCompute` by the next-state function's inversions, `Fetch` by the test for PRINT,
and every other state by its one successor. -/
theorem clockFollowsTransitionTable : Obligations.ClockFollowsTransitionTable := by
  intro s t p hv h
  cases clock_cycle hv h with
  | fetch hs => rw [hs]; exact if_congr (isPrint_iff _) rfl rfl
  | decode hs hn => rw [hs]; exact nextState_decode_cases hn
  | address hs hn => rw [hs]; exact nextState_addressCompute_cases hn
  | _ hs => rw [hs]; rfl

/-! ### No control state waits (40_datapath.md R112; 60_exceptions.md R232) -/

/-- The most cycles from a control state until the FSM is back in `Fetch`; from `Fetch`, those of LW (40_datapath.md
R129). -/
def FsmState.cyclesToFetch : FsmState → Nat
  | .fetch => 5
  | .decode => 4
  | .rTypeExecute => 2
  | .rTypeWriteback => 1
  | .jType => 1
  | .iTypeAddressCompute => 3
  | .iTypeMemoryRead => 2
  | .iTypeMemoryWrite => 1
  | .iTypeReadWriteback => 1
  | .branch => 1

theorem FsmState.cyclesToFetch_le_five (st : FsmState) : st.cyclesToFetch ≤ 5 := by cases st <;> decide

@[simp] theorem probeCycle_fsmState (s : State) (st : FsmState) (r : Word) : (probeCycle s st r).fsmState = st := rfl
@[simp] theorem readCycle_fsmState (s : State) (v : Word) : (readCycle s v).fsmState = .iTypeReadWriteback := rfl

/-- A cycle ends in `Fetch` or comes nearer to it. -/
theorem Cycle.cyclesToFetch_lt {s t : State} (h : Cycle s t) (ht : t.fsmState ≠ .fetch) :
    t.fsmState.cyclesToFetch < s.fsmState.cyclesToFetch := by
  cases h with
  | fetch hs =>
    have hd : (fetchCycle s (codeWord s.cfg.code (u32 s.pc))).fsmState = .decode :=
      if_neg fun hp => ht (if_pos hp)
    rw [hd, hs]
    decide
  | decode hs hn =>
    rw [hs, probeCycle_fsmState]
    obtain ⟨-, rfl⟩ | ⟨-, rfl⟩ | ⟨-, rfl⟩ | ⟨-, rfl⟩ := nextState_decode_cases hn <;> decide
  | address hs hn =>
    rw [hs, probeCycle_fsmState]
    obtain ⟨-, rfl⟩ | ⟨-, rfl⟩ := nextState_addressCompute_cases hn <;> decide
  | execute hs => rw [hs, probeCycle_fsmState]; decide
  | read hs => rw [hs, readCycle_fsmState]; decide
  | _ => exact absurd rfl ht

theorem fsmState_of_clocksToFetch {n : Nat} {s t : State} (hv : s.cfg.enc.Valid) (hn : s.fsmState.cyclesToFetch ≤ n)
    (h : clocksToFetch n s = .ok t) : t.fsmState = .fetch := by
  induction n generalizing s with
  | zero => cases hs : s.fsmState <;> simp [hs, FsmState.cyclesToFetch] at hn
  | succ n ih =>
    cases hk : clock s with
    | error f => rw [clocksToFetch_succ_error hk] at h; cases h
    | ok r =>
      rw [clocksToFetch_succ_ok hk] at h
      split at h
      case isTrue hf => cases h; exact hf
      case isFalse hf =>
        have hlt := (clock_cycle hv hk).cyclesToFetch_lt hf
        exact ih (clock_cfg hv hk ▸ hv) (by omega) h

/-- Settles O41: no control state is more than five cycles away from `Fetch`. -/
theorem fetchIsReachedWithinFiveCycles : Obligations.FetchIsReachedWithinFiveCycles :=
  fun s _ hv h => fsmState_of_clocksToFetch hv s.fsmState.cyclesToFetch_le_five h

/-! ### What an instruction's cycles end in

Each meaning's shared effect against the cycles of its kind: `Leads` up to the last cycle, and that cycle by its `clock_…`
lemma. -/

/-- The cycles from `s` end in `x`: they are `n` when they complete and at most `n` when they raise, and none before the
last ends in `Fetch`. -/
inductive EndsIn (s : State) : Nat → Except Fault State → Prop where
  | last {k : Nat} {u : State} {x : Except Fault State} : Leads k s u → clocks 1 u = x → EndsIn s (k + 1) x
  | raise {k n : Nat} {u : State} {f : Fault} : Leads k s u → clock u = .error f → k < n → EndsIn s n (.error f)

theorem EndsIn.clocks_eq {s t : State} {n : Nat} (h : EndsIn s n (.ok t)) : clocks n s = .ok t := by
  cases h with
  | @last k _ _ hl hc => rw [Nat.add_comm, hl.clocks_add, hc]

theorem EndsIn.not_fetch {s t : State} {n : Nat} (h : EndsIn s n (.ok t)) {j : Nat} {u : State} (h0 : 0 < j) (hj : j < n)
    (hu : clocks j s = .ok u) : u.fsmState ≠ .fetch := by
  cases h with
  | last hl _ => exact hl.not_fetch h0 (Nat.le_of_lt_succ hj) hu

/-- A last cycle that ends in `Fetch`, if it completes, ends the cycles to `Fetch`. -/
theorem clocksToFetch_succ_eq {u : State} (h : ∀ t, clocks 1 u = .ok t → t.fsmState = .fetch) (n : Nat) :
    clocksToFetch (n + 1) u = clocks 1 u := by
  cases hc : clock u with
  | error f => rw [clocksToFetch_succ_error hc, clocks, hc]; rfl
  | ok r =>
    have hone : clocks 1 u = .ok r.1 := clocks_succ_ok hc
    rw [clocksToFetch_succ_ok hc, if_pos (h _ hone), hone]

theorem EndsIn.clocksToFetch_eq {s : State} {n m : Nat} {x : Except Fault State} (h : EndsIn s n x)
    (hf : ∀ t, x = .ok t → t.fsmState = .fetch) (hm : n ≤ m) : clocksToFetch m s = x := by
  cases h with
  | @last k u _ hl hc =>
    subst hc
    obtain ⟨j, rfl⟩ := Nat.exists_eq_add_of_le hm
    rw [show k + 1 + j = j + 1 + k by omega, hl.clocksToFetch_add, clocksToFetch_succ_eq hf]
  | @raise k _ u f hl hc hk =>
    obtain ⟨j, rfl⟩ := Nat.exists_eq_add_of_lt (hk.trans_le hm)
    rw [show k + j + 1 = j + 1 + k by omega, hl.clocksToFetch_add, clocksToFetch_succ_error hc]

theorem clocks_one_of_ok {s t : State} {p : ClkPorts} (h : clock s = .ok (t, p)) : clocks 1 s = .ok t := clocks_succ_ok h

/-- The same of a cycle that can raise, as the `clock_…` lemmas state one. -/
theorem clocks_one_of_bind {α : Type} {s : State} {x : Except Fault α} {f : α → State} {p : α → ClkPorts}
    (h : clock s = x.bind fun a => .ok (f a, p a)) : clocks 1 s = x.bind fun a => .ok (f a) := by
  rw [clocks, h]
  cases x <;> rfl

/-- The memory cycle of a store is the store's effect on the operand and the address latched. -/
theorem clocks_one_of_iTypeMemoryWrite {s : State} (h : s.fsmState = .iTypeMemoryWrite) :
    clocks 1 s = storeEffect s.operandB s.aluOutput s := by
  rw [clocks, clock_iTypeMemoryWrite h, storeEffect]
  cases memWrite s.aluOutput s.operandB { s with fsmState := .fetch } with
  | error f => rfl
  | ok t => simp only [Except.bind]; cases memRead s.aluOutput t <;> rfl

/-- A load in range is its write-back of the word read. -/
theorem loadEffect_of_inRange {rt : RegIx} {ea : Word} {s : State} (h : dataInRange s.cfg.memSize ea = true) :
    loadEffect rt ea s = (writeReg .iTypeReadWriteback rt (s.mem.readWord (byteAddr ea))
      (loadReady (s.mem.readWord (byteAddr ea)) s)).bind fun t => .ok t.idleLatch := by
  rw [loadEffect, memRead_inRange (s := { s with fsmState := .iTypeReadWriteback }) h]
  rfl

/-- From a load's memory cycle on: the read ends the cycles when it raises, and otherwise the write-back does. -/
theorem Leads.endsIn_loadEffect {k : Nat} {s u : State} (hl : Leads k s u) (hu : u.fsmState = .iTypeMemoryRead) :
    EndsIn s (k + 2) (loadEffect (rtField u.ir) u.aluOutput u) := by
  have hread := clock_iTypeMemoryRead hu
  cases hm : dataInRange u.cfg.memSize u.aluOutput with
  | false =>
    rw [memRead_outOfRange (s := { u with fsmState := .iTypeReadWriteback }) hm] at hread
    rw [loadEffect_outOfRange hm]
    exact .raise hl hread (by omega)
  | true =>
    rw [memRead_inRange (s := { u with fsmState := .iTypeReadWriteback }) hm] at hread
    rw [loadEffect_of_inRange hm]
    exact .last (hl.tail hread (by simp)) (clocks_one_of_bind (clock_iTypeReadWriteback rfl))

section Effects

variable {s : State} {w : Word} (hs : s.fsmState = .fetch) (hr : fetchInRange s.pc s = true)
  (hw : codeWord s.cfg.code (u32 s.pc) = w)

include hs hr hw

/-- The one cycle of PRINT (44_print.md R200). -/
theorem print_endsIn : EndsIn s 1 (.ok (fetchCycle s w)) := by
  subst hw
  exact .last (.refl s) (clocks_one_of_ok (clock_fetch hs hr))

/-- The four cycles of an R-type operation (41_alu_rtype.md section 2). -/
theorem rTypeEffect_endsIn {v : Word} (h0 : opcodeField w = 0) (hf : functField w ≠ 0)
    (ha : alu s.cfg.enc (s.readReg (rsField w)) (s.readReg (rtField w)) (functField w) = some v) :
    EndsIn s 4 (rTypeEffect w (rdField w) v s) :=
  .last (leads_rTypeExecuted hs hr hw h0 hf ha) (clocks_one_of_bind (clock_rTypeWriteback rfl))

variable (hv : s.cfg.enc.Valid)

include hv

/-- The three cycles of a jump (43_control_transfer.md R183). -/
theorem jump_endsIn {addr26 : BitVec 26} (h0 : opcodeField w = s.cfg.enc.opJ) (ha : addr26Field w = addr26) :
    EndsIn s 3 (.ok { (s.issue w).idleFlag.idleLatch with
      fsmState := .fetch, pc := jumpTarget (s.issue w).pc addr26 }) := by
  subst ha
  exact .last (leads_jump hs hr hw hv h0) (clocks_one_of_ok (clock_jType rfl))

/-- The three cycles of a branch (R181, R182): the test is negated for BNE. -/
theorem branchEffect_endsIn {negate : Bool} (h0 : opcodeField w = s.cfg.enc.opBeq ∨ opcodeField w = s.cfg.enc.opBne)
    (hn : decide (opcodeField w = s.cfg.enc.opBne) = negate) :
    EndsIn s 3 (.ok (branchEffect w (imm8Field w) (s.readReg (rsField w)) (s.readReg (rtField w)) negate s)) := by
  subst hn
  exact .last (leads_branch hs hr hw hv h0) (clocks_one_of_ok (clock_branch rfl fun a b => (alu_valid hv a b).1))

/-- The four cycles of SW (42_load_store.md R162). -/
theorem storeEffect_endsIn (h0 : opcodeField w = s.cfg.enc.opSw) :
    EndsIn s 4 (storeEffect (s.readReg (rtField w)) (effectiveAddress (s.readReg (rsField w)) (imm8Field w))
      (addressEffect w (effectiveAddress (s.readReg (rsField w)) (imm8Field w)) s)) :=
  .last (leads_addressed hs hr hw hv (.inr h0) (st := .iTypeMemoryWrite) (by simp [nextState, h0, hv.opcodes_ne]))
    (clocks_one_of_iTypeMemoryWrite rfl)

/-- The five cycles of LW (R161): the fourth reads, and is the last when it raises. -/
theorem loadEffect_endsIn (h0 : opcodeField w = s.cfg.enc.opLw) :
    EndsIn s 5 (loadEffect (rtField w) (effectiveAddress (s.readReg (rsField w)) (imm8Field w))
      (addressEffect w (effectiveAddress (s.readReg (rsField w)) (imm8Field w)) s)) :=
  (leads_addressed hs hr hw hv (.inl h0) (st := .iTypeMemoryRead) (by simp [nextState, h0])).endsIn_loadEffect rfl

end Effects

/-- The R-type operations, by their function code and what the ALU does for it. -/
theorem encodeRType_endsIn {s : State} (hs : s.fsmState = .fetch) (hr : fetchInRange s.pc s = true) {rs rt rd : RegIx}
    {ign : BitVec 5} {fn : BitVec 6} {v : Word} (hw : codeWord s.cfg.code (u32 s.pc) = encodeRType rs rt rd ign fn)
    (hf : fn ≠ 0) (ha : alu s.cfg.enc (s.readReg rs) (s.readReg rt) fn = some v) :
    EndsIn s 4 (rTypeEffect (encodeRType rs rt rd ign fn) rd v s) := by
  simpa using rTypeEffect_endsIn hs hr hw (v := v) (by simp) (by simpa using hf) (by simpa using ha)

/-- PRINT's meaning is what its `Fetch` cycle does (44_print.md R200). -/
theorem exec_print (rs rt rd : RegIx) (ign : BitVec 5) (s : State) :
    exec (.print rs rt rd ign) s = outcome (.ok (fetchCycle s (encode s.cfg.enc (.print rs rt rd ign)))) := by
  have hp : isPrint (encodeRType rs rt rd ign 0) = true := by simp [isPrint_iff]
  simp only [fetchCycle, encode, hp, if_true, rsField_encodeRType]
  rfl

/-- Every instruction's meaning is what its cycles end in. -/
theorem exec_endsIn {i : Instr} {s : State} (hv : s.cfg.enc.Valid) (hs : s.fsmState = .fetch)
    (hr : fetchInRange s.pc s = true) (hw : codeWord s.cfg.code (u32 s.pc) = encode s.cfg.enc i) :
    ∃ x, exec i s = outcome x ∧ EndsIn s i.cycles x := by
  have halu := alu_valid hv
  simp only [forall_and] at halu
  obtain ⟨hsub, hand, hor, hnor, hslt⟩ := halu
  obtain ⟨-, -, -, -, -, hadd0, hsub0, hand0, hor0, hnor0, hslt0⟩ := hv.functs_ne
  obtain ⟨-, ⟨-, hbne⟩, -⟩ := hv.opcodes_ne
  cases i with
  | add => exact ⟨_, rfl, encodeRType_endsIn hs hr hw hadd0 (alu_fnAdd ..)⟩
  | sub => exact ⟨_, rfl, encodeRType_endsIn hs hr hw hsub0 (hsub ..)⟩
  | and => exact ⟨_, rfl, encodeRType_endsIn hs hr hw hand0 (hand ..)⟩
  | or => exact ⟨_, rfl, encodeRType_endsIn hs hr hw hor0 (hor ..)⟩
  | nor => exact ⟨_, rfl, encodeRType_endsIn hs hr hw hnor0 (hnor ..)⟩
  | slt => exact ⟨_, rfl, encodeRType_endsIn hs hr hw hslt0 (hslt ..)⟩
  | print => exact ⟨_, exec_print .., print_endsIn hs hr hw⟩
  | lw =>
    have h := loadEffect_endsIn hs hr hw hv (by simp [encode])
    exact ⟨_, rfl, by simpa [encode, Instr.cycles] using h⟩
  | sw =>
    have h := storeEffect_endsIn hs hr hw hv (by simp [encode])
    exact ⟨_, rfl, by simpa [encode, Instr.cycles] using h⟩
  | beq =>
    have h := branchEffect_endsIn hs hr hw hv (negate := false) (.inl (by simp [encode])) (by simp [encode, hbne.symm])
    exact ⟨_, rfl, by simpa [encode, Instr.cycles] using h⟩
  | bne =>
    have h := branchEffect_endsIn hs hr hw hv (negate := true) (.inr (by simp [encode])) (by simp [encode])
    exact ⟨_, rfl, by simpa [encode, Instr.cycles] using h⟩
  | j => exact ⟨_, rfl, jump_endsIn hs hr hw hv (by simp [encode]) (by simp [encode])⟩

theorem cycles_le_five (i : Instr) : i.cycles ≤ 5 := by cases i <;> simp [Instr.cycles]

/-- An instruction fetched is at the PC, in the stream, with the FSM in `Fetch`. -/
theorem fetchInstr_cases {s : State} {i : Instr} (h : fetchInstr s = some i) :
    s.fsmState = .fetch ∧ fetchInRange s.pc s = true ∧ codeWord s.cfg.code (u32 s.pc) = encode s.cfg.enc i := by
  unfold fetchInstr at h
  split_ifs at h with hs hr
  refine ⟨hs, hr, ?_⟩
  split at h
  · cases h
    exact (encode_of_decodeWord ‹_›).symm
  · cases h

/-- Settles O39: where nothing is fetched a step is the cycles by definition; an instruction's meaning is what its cycles
end in, back in `Fetch` when it completes. -/
theorem stepIsTheDatapathsCycles : Obligations.StepIsTheDatapathsCycles := by
  intro s hv hf
  cases hi : fetchInstr s with
  | none => exact step_of_fetchInstr_none hf hi
  | some i =>
    obtain ⟨hs, hr, hw⟩ := fetchInstr_cases hi
    obtain ⟨x, hx, hends⟩ := exec_endsIn hv hs hr hw
    have hfetch : ∀ t, x = .ok t → t.fsmState = .fetch := fun t ht =>
      (exec_retired (hx.trans (outcome_next_iff.mpr ht))).fsmState_eq
    rw [step_of_fetchInstr_some hf hi, hx, hends.clocksToFetch_eq hfetch (cycles_le_five i)]

/-- Settles O40: the count and the states on the way are those of the cycles the meaning is the end of. -/
theorem instructionTakesItsCycles : Obligations.InstructionTakesItsCycles := by
  intro i s t rest hv _ hs hd he
  obtain ⟨-, hr, hw⟩ := fetchInstr_cases (fetchInstr_of_decode hs hd)
  obtain ⟨x, hx, hends⟩ := exec_endsIn hv hs hr hw
  obtain rfl : x = .ok t := outcome_next_iff.mp (hx.symm.trans he)
  exact ⟨hends.clocks_eq, fun k u => hends.not_fetch⟩

end Sys2Proof.Machine

/-! PROOFS. The statements of the family 41_alu_rtype.md: what the ALU computes for each of its function codes, its flag, the
fault of a code it does not have, and the six R-type instructions over their common effect. -/

namespace Sys2Proof.Machine

/-! ### The operations (41_alu_rtype.md R141 to R146) -/

/-- The sum of the signed readings, wrapped (R141): a Word is the wrap of its signed reading. -/
theorem aluAdd_eq_wrap32 (a b : Word) : aluAdd a b = wrap32 (s32 a + s32 b) := by
  rw [wrap32, BitVec.ofInt_add, BitVec.ofInt_toInt, BitVec.ofInt_toInt, aluAdd]

/-- R141's other reading. -/
theorem u32_aluAdd (a b : Word) : u32 (aluAdd a b) = (u32 a + u32 b) % 2 ^ 32 := BitVec.toNat_add a b

/-- The difference of the signed readings, wrapped (R142). -/
theorem aluSub_eq_wrap32 (a b : Word) : aluSub a b = wrap32 (s32 a - s32 b) := by
  rw [wrap32, Int.sub_eq_add_neg, BitVec.ofInt_add, BitVec.ofInt_neg, BitVec.ofInt_toInt, BitVec.ofInt_toInt, aluSub,
    BitVec.sub_eq_add_neg]

/-- A bit of a NOR inside the Word (R145); past bit 31 every bit reads 0. -/
theorem getLsbD_aluNor (a b : Word) {k : Nat} (hk : k < 32) :
    (aluNor a b).getLsbD k = !(a.getLsbD k || b.getLsbD k) := by
  rw [aluNor, BitVec.getLsbD_not, BitVec.getLsbD_or, decide_eq_true hk, Bool.true_and]

/-! ### One invocation (R147, R148) -/

theorem zeroOf_eq_decide (result : Word) : zeroOf result = decide (result = 0) := rfl

/-- An invocation that gives a result gives the function's, and leaves the flag it sets. -/
theorem runAlu_ok_cases {a b r : Word} {f : BitVec 6} {s t : State} (h : runAlu a b f s = .ok (r, t)) :
    alu s.cfg.enc a b f = some r ∧ t = { s with zero := zeroOf r } := by
  cases ha : alu s.cfg.enc a b f with
  | none => rw [runAlu_none rfl ha] at h; cases h
  | some v => rw [runAlu_some rfl ha] at h; cases h; exact ⟨rfl, rfl⟩

/-- Settles O10: `alu` has a result exactly for the six codes, and without one the invocation raises. -/
theorem unsupportedFunctRaises : Obligations.UnsupportedFunctRaises := by
  refine fun a b f s => ⟨fun hf => ?_, fun hf => ?_⟩
  · exact ⟨_, runAlu_none rfl ((alu_eq_none_iff _ a b f).mpr hf), rfl⟩
  · obtain ⟨v, hv⟩ := Option.isSome_iff_exists.mp ((alu_isSome_iff _ a b f).mpr hf)
    exact ⟨v, _, runAlu_some rfl hv⟩

/-- Settles O6: the two operations under their codes, and the two examples evaluated. -/
theorem aluAddAndSubWrap : Obligations.AluAddAndSubWrap := by
  refine fun e he => ⟨fun a b => ⟨?_, fun r hr => ?_, ?_⟩, ?_, ?_⟩
  · rw [alu_fnAdd, aluAdd_eq_wrap32]
  · rw [alu_fnAdd] at hr
    cases hr
    exact u32_aluAdd a b
  · rw [(alu_valid he a b).1, aluSub_eq_wrap32]
  · exact alu_fnAdd ..
  · exact (alu_valid he _ _).1

/-- Settles O7: the three operations under their codes, at each bit. -/
theorem aluLogicIsBitwise : Obligations.AluLogicIsBitwise := by
  intro e a b he
  obtain ⟨-, hand, hor, hnor, -⟩ := alu_valid he a b
  exact ⟨_, _, _, hand, hor, hnor, fun k hk => ⟨BitVec.getLsbD_and, BitVec.getLsbD_or, getLsbD_aluNor a b hk⟩⟩

/-- Settles O8: the two outcomes of the comparison, and the example evaluated. -/
theorem aluSltIsSigned : Obligations.AluSltIsSigned := by
  intro e he
  have hslt (a b : Word) : alu e a b e.fnSlt = some (aluSlt a b) := by
    obtain ⟨-, -, -, -, h⟩ := alu_valid he a b
    exact h
  refine ⟨fun a b => ⟨fun h => ?_, fun h => ?_⟩, hslt _ _⟩
  · rw [hslt, aluSlt, if_pos h]
  · rw [hslt, aluSlt, if_neg h]

/-- Settles O9: the flag is the one `runAlu_ok_cases` names. -/
theorem aluSetsZeroFlagAlone : Obligations.AluSetsZeroFlagAlone := by
  refine ⟨fun a b r f s t h => ?_, fun s => rfl⟩
  obtain ⟨-, rfl⟩ := runAlu_ok_cases h
  rw [zeroOf_eq_decide]

/-! ### The R-type instructions (41_alu_rtype.md section 2) -/

/-- An instruction whose meaning is the common effect of `op` does what section 2 says of `op`. -/
theorem rTypeDoes_of_exec {mk : RegIx → RegIx → RegIx → BitVec 5 → Instr} {op : Word → Word → Word}
    (h : ∀ rs rt rd ign s, exec (mk rs rt rd ign) s =
      outcome (rTypeEffect (encode s.cfg.enc (mk rs rt rd ign)) rd (op (s.readReg rs) (s.readReg rt)) s)) :
    Claims.RTypeDoes mk op := by
  refine fun rs rt rd ign s => ⟨fun hd => ?_, fun hd => ?_⟩
  · have hdone := h rs rt rd ign s
    rw [rTypeEffect_ok hd] at hdone
    exact ⟨_, hdone, rfl⟩
  · subst hd
    have hstop := h rs rt 0 ign s
    rw [rTypeEffect_zero, outcome_raise] at hstop
    exact ⟨_, hstop, rfl, rfl, rfl, rfl⟩

/-- Settles O27: `aluAdd` and `aluSub` are the wrapped sum and difference. -/
theorem addAndSubComplete : Obligations.AddAndSubComplete := by
  unfold Obligations.AddAndSubComplete
  simp only [← aluAdd_eq_wrap32, ← aluSub_eq_wrap32]
  exact ⟨rTypeDoes_of_exec fun _ _ _ _ _ => rfl, rTypeDoes_of_exec fun _ _ _ _ _ => rfl⟩

/-- Settles O28: the operations are `aluAnd`, `aluOr` and `aluNor`. -/
theorem logicOperationsComplete : Obligations.LogicOperationsComplete :=
  ⟨rTypeDoes_of_exec (op := aluAnd) fun _ _ _ _ _ => rfl, rTypeDoes_of_exec (op := aluOr) fun _ _ _ _ _ => rfl,
    rTypeDoes_of_exec (op := aluNor) fun _ _ _ _ _ => rfl⟩

/-- Settles O29: the operation is `aluSlt`. -/
theorem setLessThanCompletes : Obligations.SetLessThanCompletes :=
  rTypeDoes_of_exec (op := aluSlt) fun _ _ _ _ _ => rfl

end Sys2Proof.Machine

/-! PROOFS. The statements of the family 42_load_store.md: the effective address, and LW and SW over the effects their
meanings share with the cycles. -/

namespace Sys2Proof.Machine

/-! ### The effective address (42_load_store.md R160; decision D8) -/

/-- The meanings add the zero-extended offset to the base; the statements wrap the sum of the signed base and the offset's
unsigned reading. -/
theorem effectiveAddress_eq_ea (s : State) (rs : RegIx) (imm8 : BitVec 8) :
    effectiveAddress (s.readReg rs) imm8 = Claims.ea s rs imm8 := by
  rw [Claims.ea, wrap32, BitVec.ofInt_add, BitVec.ofInt_toInt, BitVec.ofInt_natCast, BitVec.ofNat_toNat,
    effectiveAddress, immOf]

theorem byteAddr_of_legal {s : State} {addr : Word} (h : Claims.legal s addr) : byteAddr addr = addr.toNat :=
  byteAddr_eq_toNat (legal_iff_dataInRange.mp h)

/-! ### LW (R161) -/

theorem exec_lw (rs rt : RegIx) (ign imm8 : BitVec 8) (s : State) :
    exec (.lw rs rt ign imm8) s = outcome (loadEffect rt (Claims.ea s rs imm8)
      (addressEffect (encode s.cfg.enc (.lw rs rt ign imm8)) (Claims.ea s rs imm8) s)) := by
  rw [← effectiveAddress_eq_ea]
  rfl

/-- Settles O30: the range check comes before the destination is looked at, so the cases are those of `loadEffect`. -/
theorem loadWordCompletes : Obligations.LoadWordCompletes := by
  intro rs rt ign imm8 s
  rw [exec_lw]
  refine ⟨fun h hd => ?_, fun h hd => ?_, fun h => ?_⟩
  · rw [loadEffect_ok hd (s3 := addressEffect _ _ s) (legal_iff_dataInRange.mp h), byteAddr_of_legal h]
    exact ⟨_, rfl, rfl⟩
  · rw [hd, loadEffect_zero (s3 := addressEffect _ _ s) (legal_iff_dataInRange.mp h), outcome_raise]
    exact ⟨_, rfl, rfl, rfl⟩
  · rw [loadEffect_outOfRange (s3 := addressEffect _ _ s) (dataInRange_eq_false_of_not_legal h), outcome_raise]
    exact ⟨_, rfl, rfl, rfl⟩

/-! ### SW (R162) -/

theorem exec_sw (rs rt : RegIx) (ign imm8 : BitVec 8) (s : State) :
    exec (.sw rs rt ign imm8) s = outcome (storeEffect (s.readReg rt) (Claims.ea s rs imm8)
      (addressEffect (encode s.cfg.enc (.sw rs rt ign imm8)) (Claims.ea s rs imm8) s)) := by
  rw [← effectiveAddress_eq_ea]
  rfl

/-- Settles O31: in range the memory is `s`'s with one word written: it reads back there, and other bytes read as before. -/
theorem storeWordCompletes : Obligations.StoreWordCompletes := by
  intro rs rt ign imm8 s hwf
  rw [exec_sw]
  refine ⟨fun h => ?_, fun h => ?_⟩
  · rw [storeEffect_ok (s3 := addressEffect _ _ s) (legal_iff_dataInRange.mp h), byteAddr_of_legal h]
    exact ⟨_, rfl, rfl, Memory.readWord_writeWord hwf _ _, fun a ha => Memory.read_writeWord_outside hwf ha _⟩
  · rw [storeEffect_outOfRange (s3 := addressEffect _ _ s) (dataInRange_eq_false_of_not_legal h), outcome_raise]
    exact ⟨_, rfl, rfl, rfl⟩

end Sys2Proof.Machine

/-! PROOFS. The statements of the family 43_control_transfer.md: where a transfer can go, and BEQ, BNE and J over the meanings
their cycles share. -/

namespace Sys2Proof.Machine

/-! ### Targets (43_control_transfer.md R180, R184, R185, R189) -/

/-- Seen from the branch's own address `A`, the target lies `imm8 + 1` words on (decision D7). -/
theorem branchTarget_add_four (a : Word) (imm8 : BitVec 8) :
    branchTarget (a + 4) imm8 = a + BitVec.ofNat 32 (4 * (imm8.toNat + 1)) := by
  rw [branchTarget_eq_add, Nat.mul_succ, BitVec.ofNat_add, BitVec.add_comm _ (BitVec.ofNat 32 4), ← BitVec.add_assoc]
  rfl

/-- A jump keeps the top four bits of the PC (R184): the field and the two zero bits fill the 28 bits below them. -/
theorem u32_jumpTarget_div (pc : Word) (addr26 : BitVec 26) : u32 (jumpTarget pc addr26) / 2 ^ 28 = u32 pc / 2 ^ 28 := by
  have hpc := pc.isLt
  have haddr := addr26.isLt
  simp only [jumpTarget, u32, BitVec.toNat_append, BitVec.extractLsb'_toNat, BitVec.ofNat_eq_ofNat, BitVec.toNat_ofNat,
    Nat.zero_mod, Nat.or_zero, Nat.shiftRight_eq_div_pow]
  rw [← Nat.shiftLeft_add_eq_or_of_lt haddr, Nat.shiftLeft_eq, Nat.shiftLeft_eq]
  omega

/-- Settles O37: `k` is `imm8 + 1`. -/
theorem transferTargetsAreAligned : Obligations.TransferTargetsAreAligned := by
  refine ⟨fun a imm8 ha => ⟨u32_branchTarget_mod_four (u32_add_four_mod_four ha) imm8, imm8.toNat + 1, ?_, ?_,
    branchTarget_add_four a imm8⟩, fun pc addr26 => ⟨u32_jumpTarget_mod_four pc addr26, u32_jumpTarget_div pc addr26⟩⟩
  · exact Nat.le_add_left 1 _
  · exact imm8.isLt

/-! ### BEQ and BNE (R181, R182) -/

/-- The comparison of a branch: the difference is 0 exactly when the operands are equal, wrapped or not (R142, R148). -/
theorem zeroOf_aluSub (a b : Word) : zeroOf (aluSub a b) = (a == b) :=
  decide_eq_decide.mpr sub_eq_zero

/-- An instruction whose meaning is the common effect of the branches does what R181 and R182 say of its decision. -/
theorem branchDoes_of_exec {mk : RegIx → RegIx → BitVec 8 → BitVec 8 → Instr} {taken : Word → Word → Bool} {negate : Bool}
    (h : ∀ rs rt ign imm8 s, exec (mk rs rt ign imm8) s =
      .next (branchEffect (encode s.cfg.enc (mk rs rt ign imm8)) imm8 (s.readReg rs) (s.readReg rt) negate s))
    (htaken : ∀ a b, taken a b = branchTest (a == b) negate) : Claims.BranchDoes mk taken := by
  intro rs rt ign imm8 s
  refine ⟨_, h rs rt ign imm8 s, ?_⟩
  rw [htaken, ← zeroOf_aluSub, ← branchTarget_eq_add]
  rfl

/-- Settles O32: BEQ's decision is the comparison itself, BNE's its negation. -/
theorem branchesComplete : Obligations.BranchesComplete := by
  constructor
  · exact branchDoes_of_exec (fun _ _ _ _ _ => rfl) fun a b => (Bool.xor_false _).symm
  · exact branchDoes_of_exec (fun _ _ _ _ _ => rfl) fun a b => (decide_not ..).trans (Bool.xor_true _).symm

/-! ### J (R183) -/

/-- Settles O33: the target stands in the meaning as the statement writes it, taken at the incremented PC. -/
theorem jumpCompletes : Obligations.JumpCompletes := fun _ _ => ⟨_, rfl, rfl⟩

end Sys2Proof.Machine

/-! PROOFS. The statement of the family 44_print.md: what PRINT's one cycle leaves. -/

namespace Sys2Proof.Machine

/-- Settles O34: PRINT's only cycle is `Fetch`, so its meaning writes the increment, its flag and the appended word as the
statement does (R200), and its operand latches are those `issue` takes from the word. -/
theorem printCompletes : Obligations.PrintCompletes := fun _ _ _ _ _ => ⟨_, rfl, rfl⟩

end Sys2Proof.Machine

/-! PROOFS. The statements of the family 60_exceptions.md: what a cycle can raise and what the raise leaves, when an
instruction stops, what the host is admitted, and the states it can reach. -/

namespace Sys2Proof.Machine

/-! ### What a cycle raises (60_exceptions.md R210 to R216) -/

theorem length_lt_of_not_fetchInRange {s : State} {addr : Word} (h : fetchInRange addr s = false) :
    s.cfg.code.length < u32 addr + 4 := Nat.not_le.mp (of_decide_eq_false h)

theorem not_legal_of_dataInRange_eq_false {s : State} {addr : Word} (h : dataInRange s.cfg.memSize addr = false) :
    ¬Claims.legal s addr := mt legal_iff_dataInRange.mp (Bool.eq_false_iff.mp h)

/-- Settles O23: each control state that can raise has one record, and its condition is the row's of the table. -/
theorem clockFaultsOnlyByTheTable : Obligations.ClockFaultsOnlyByTheTable := by
  intro s f hv h
  obtain ⟨r, u, rfl, hr⟩ := clock_error_cases hv h
  rw [FaultRecord.stop_record]
  cases hs : s.fsmState <;> simp only [hs] at hr <;> obtain ⟨hcond, rfl, -⟩ := hr
  case fetch => exact ⟨rfl, rfl, length_lt_of_not_fetchInRange hcond⟩
  case decode => exact ⟨rfl, .inl ⟨rfl, (nextState_decode_eq_none_iff ..).mp hcond⟩⟩
  case iTypeAddressCompute => exact ⟨rfl, .inr ⟨rfl, (nextState_addressCompute_eq_none_iff ..).mp hcond⟩⟩
  case rTypeExecute => exact ⟨rfl, rfl, (alu_eq_none_iff ..).mp hcond⟩
  case rTypeWriteback => exact ⟨rfl, .inl ⟨rfl, hcond⟩⟩
  case iTypeReadWriteback => exact ⟨rfl, .inr ⟨rfl, hcond⟩⟩
  case iTypeMemoryRead => exact ⟨.inl rfl, rfl, not_legal_of_dataInRange_eq_false hcond⟩
  case iTypeMemoryWrite => exact ⟨.inr rfl, rfl, not_legal_of_dataInRange_eq_false hcond⟩

theorem clock_rTypeWriteback_zero {s : State} (hs : s.fsmState = .rTypeWriteback) (hd : rdField s.ir = 0) :
    clock s = raise (.reg0Write .rTypeWriteback) { s.idleFlag with fsmState := .fetch } := by
  rw [clock_rTypeWriteback hs, hd, writeReg_zero]
  rfl

theorem clock_iTypeReadWriteback_zero {s : State} (hs : s.fsmState = .iTypeReadWriteback) (hd : rtField s.ir = 0) :
    clock s = raise (.reg0Write .iTypeReadWriteback) { s.idleFlag with fsmState := .fetch } := by
  rw [clock_iTypeReadWriteback hs, hd, writeReg_zero]
  rfl

/-- Settles O25: of the cycle only step 1 and the ALU's flag have taken effect. -/
theorem writebackToZeroRaises : Obligations.WritebackToZeroRaises := fun _ =>
  ⟨fun hs hd => ⟨_, clock_rTypeWriteback_zero hs hd, rfl, rfl, rfl, rfl⟩,
    fun hs hd => ⟨_, clock_iTypeReadWriteback_zero hs hd, rfl, rfl, rfl, rfl⟩⟩

theorem clock_iTypeMemoryWrite_outOfRange {s : State} (hs : s.fsmState = .iTypeMemoryWrite)
    (hr : dataInRange s.cfg.memSize s.aluOutput = false) :
    clock s = raise (.memOutOfRange (s32 s.aluOutput)) { s with fsmState := .fetch } := by
  rw [clock_iTypeMemoryWrite hs, memWrite_outOfRange (s := { s with fsmState := .fetch }) hr]
  rfl

theorem clock_iTypeMemoryRead_outOfRange {s : State} (hs : s.fsmState = .iTypeMemoryRead)
    (hr : dataInRange s.cfg.memSize s.aluOutput = false) :
    clock s = raise (.memOutOfRange (s32 s.aluOutput)) { s with fsmState := .iTypeReadWriteback } := by
  rw [clock_iTypeMemoryRead hs, memRead_outOfRange (s := { s with fsmState := .iTypeReadWriteback }) hr]
  rfl

/-- Settles O26: in both states of the cycle only step 1 has taken effect. -/
theorem dataAccessOutOfRangeRaises : Obligations.DataAccessOutOfRangeRaises := by
  intro s hs hlegal
  have hr := dataInRange_eq_false_of_not_legal hlegal
  obtain hs | hs := hs
  · exact ⟨_, clock_iTypeMemoryWrite_outOfRange hs hr, rfl, rfl, rfl, rfl, rfl⟩
  · exact ⟨_, clock_iTypeMemoryRead_outOfRange hs hr, rfl, rfl, rfl, rfl, rfl⟩

/-- Settles O54: a number outside is one past the largest inside, or more. -/
theorem selectorNumbersAreClosed : Obligations.SelectorNumbersAreClosed := by
  refine fun n s => ⟨fun h => ?_, fun h => ?_, fun h => ?_, fun a => ?_, fun b => ?_, fun p => ?_⟩
  · obtain ⟨k, rfl⟩ := Nat.exists_eq_add_of_le' h
    exact ⟨_, rfl⟩
  · obtain ⟨k, rfl⟩ := Nat.exists_eq_add_of_le' h
    exact ⟨_, rfl⟩
  · obtain ⟨k, rfl⟩ := Nat.exists_eq_add_of_le' h
    exact ⟨_, rfl⟩
  · cases a <;> rfl
  · cases b <;> rfl
  · cases p <;> rfl

/-! ### When an instruction completes (60_exceptions.md R214, R215, R218) -/

/-- An outcome that is a next state when `b` holds and otherwise one of the two faults an instruction can stop by. -/
def CompletesWhen (b : Bool) (x : Host.Outcome State Fault Refusal) : Prop :=
  (b = true → ∃ t, x = .next t) ∧
  (b = false → (∃ d t, x = .fault (.reg0Write d t)) ∨ (∃ a t, x = .fault (.memOutOfRange a t)))

theorem completesWhen_next (t : State) : CompletesWhen true (.next t) := ⟨fun _ => ⟨t, rfl⟩, nofun⟩

theorem completesWhen_reg0Write (d : FsmState) (u : State) : CompletesWhen false (outcome (raise (.reg0Write d) u)) :=
  ⟨nofun, fun _ => .inl ⟨d, _, rfl⟩⟩

theorem completesWhen_memOutOfRange (a : Int) (u : State) : CompletesWhen false (outcome (raise (.memOutOfRange a) u)) :=
  ⟨nofun, fun _ => .inr ⟨a, _, rfl⟩⟩

theorem CompletesWhen.ne_refused {b : Bool} {x : Host.Outcome State Fault Refusal} (h : CompletesWhen b x) (r : Refusal) :
    x ≠ .refused r := by
  rintro rfl
  obtain ⟨hnext, hfault⟩ := h
  cases b with
  | true => obtain ⟨_, h⟩ := hnext rfl; cases h
  | false => obtain ⟨_, _, h⟩ | ⟨_, _, h⟩ := hfault rfl <;> cases h

theorem rTypeEffect_completesWhen (w : Word) (rd : RegIx) (result : Word) (s : State) :
    CompletesWhen (decide (rd ≠ 0)) (outcome (rTypeEffect w rd result s)) := by
  by_cases hd : rd = 0
  · subst hd
    exact completesWhen_reg0Write ..
  · rw [rTypeEffect_ok hd, decide_eq_true hd]
    exact completesWhen_next _

theorem loadEffect_completesWhen (rt : RegIx) (ea : Word) (s3 : State) :
    CompletesWhen (dataInRange s3.cfg.memSize ea && decide (rt ≠ 0)) (outcome (loadEffect rt ea s3)) := by
  cases hr : dataInRange s3.cfg.memSize ea with
  | false =>
    rw [loadEffect_outOfRange hr]
    exact completesWhen_memOutOfRange ..
  | true =>
    by_cases hd : rt = 0
    · subst hd
      rw [loadEffect_zero hr]
      exact completesWhen_reg0Write ..
    · rw [loadEffect_ok hd hr, decide_eq_true hd]
      exact completesWhen_next _

theorem storeEffect_completesWhen (v ea : Word) (s3 : State) :
    CompletesWhen (dataInRange s3.cfg.memSize ea) (outcome (storeEffect v ea s3)) := by
  cases hr : dataInRange s3.cfg.memSize ea with
  | false =>
    rw [storeEffect_outOfRange hr]
    exact completesWhen_memOutOfRange ..
  | true =>
    rw [storeEffect_ok hr]
    exact completesWhen_next _

/-- Settles O35: by the effect the instruction's meaning uses. -/
theorem instructionCompletesExactlyWhen : Obligations.InstructionCompletesExactlyWhen := by
  intro i s
  change CompletesWhen (completes i s) (exec i s)
  cases i with
  | add | sub | and | or | nor | slt => exact rTypeEffect_completesWhen ..
  | lw rs rt ign imm8 =>
    exact loadEffect_completesWhen rt (effectiveAddress (s.readReg rs) imm8) (addressEffect _ _ s)
  | sw rs rt ign imm8 =>
    exact storeEffect_completesWhen (s.readReg rt) (effectiveAddress (s.readReg rs) imm8) (addressEffect _ _ s)
  | print | beq | bne | j => exact completesWhen_next _

/-! ### What the host is admitted (60_exceptions.md R220, R233) -/

theorem step_of_fault {s : State} {r : FaultRecord} (h : s.fault = some r) : step s = .refused (.faulted r) := by
  unfold step
  rw [h]

theorem hostClock_of_fault {s : State} {r : FaultRecord} (h : s.fault = some r) :
    hostClock s = .refused (.faulted r) := by
  unfold hostClock
  rw [h]

theorem hostReset_of_fault {s : State} {r : FaultRecord} (h : s.fault = some r) :
    hostReset s = .refused (.faulted r) := by
  unfold hostReset
  rw [h]

/-- Settles O45. -/
theorem faultedStateAdmitsNothing : Obligations.FaultedStateAdmitsNothing :=
  fun _ _ h => ⟨step_of_fault h, hostClock_of_fault h, hostReset_of_fault h⟩

theorem hostClock_of_clock_ok {s : State} {r : State × ClkPorts} (hf : s.fault = none) (h : clock s = .ok r) :
    hostClock s = .next r := by
  unfold hostClock
  rw [hf, h]

theorem hostClock_of_clock_error {s : State} {f : Fault} (hf : s.fault = none) (h : clock s = .error f) :
    hostClock s = .fault f := by
  unfold hostClock
  rw [hf, h]

theorem outcome_ne_refused (x : Except Fault State) (r : Refusal) : outcome x ≠ .refused r := by
  cases x <;> nofun

/-- A step runs an instruction, which completes or stops by a fault, or clocks the datapath. -/
theorem step_ne_refused {s : State} (hf : s.fault = none) (r : Refusal) : step s ≠ .refused r := by
  cases hi : fetchInstr s with
  | some i =>
    rw [step_of_fetchInstr_some hf hi]
    exact CompletesWhen.ne_refused (instructionCompletesExactlyWhen i s) r
  | none =>
    rw [step_of_fetchInstr_none hf hi]
    exact outcome_ne_refused _ r

/-- Settles O55. -/
theorem clockAndStepAreAdmittedWithoutFault : Obligations.ClockAndStepAreAdmittedWithoutFault :=
  fun _ hf => ⟨fun _ => hostClock_of_clock_ok hf, fun _ => hostClock_of_clock_error hf, step_ne_refused hf⟩

/-! ### The states the host can reach (60_exceptions.md R233, R234) -/

/-- Settles O51, by induction on the host's moves. -/
theorem reachableStatesHaveInvariant : Obligations.ReachableStatesHaveInvariant := by
  intro c s hc hreach
  induction hreach with
  | fresh => exact ⟨fresh_inv hc, rfl⟩
  | clock _ hclk ih =>
    obtain ⟨hinv, hcfg⟩ := ih
    exact ⟨clockKeepsInvariant _ _ _ hinv hclk, (clock_cfg hinv.encValid hclk).trans hcfg⟩
  | reset _ ih =>
    obtain ⟨hinv, hcfg⟩ := ih
    exact ⟨resetCore_inv hinv, hcfg⟩

end Sys2Proof.Machine

/-! PROOFS. The statement of the family 70_reset_and_hazards.md: the replay after `reset()`. No cycle reads the output, so the
words printed before stay in front; and the first `Fetch` overwrites every latch that `reset()` keeps. -/

namespace Sys2Proof.Machine

/-! ### An outcome with output in front -/

/-- The fault with `p` printed before everything the state it stopped in had printed. -/
def Fault.withOutBefore (p : List Word) (f : Fault) : Fault :=
  match f.stopped with
  | some s => f.record.stop (s.withOutBefore p)
  | none => f

@[simp] theorem Fault.withOutBefore_record (p : List Word) (f : Fault) : (f.withOutBefore p).record = f.record := by
  cases f <;> rfl

@[simp] theorem Fault.withOutBefore_stopped (p : List Word) (f : Fault) :
    (f.withOutBefore p).stopped = f.stopped.map (State.withOutBefore p) := by
  cases f <;> rfl

/-- The result of an operation when `p` was printed before it: `g` says what that does to its value, and a fault stops with `p`
in front. -/
def outBefore {α : Type} (p : List Word) (g : α → α) : Except Fault α → Except Fault α
  | .ok a => .ok (g a)
  | .error f => .error (f.withOutBefore p)

section
variable {α β : Type} {g : α → α} {h : β → β} (p : List Word)

theorem outBefore_bind {x x' : Except Fault α} {k k' : α → Except Fault β} (hx : x' = outBefore p g x)
    (hk : ∀ a, k' (g a) = outBefore p h (k a)) : x'.bind k' = outBefore p h (x.bind k) := by
  subst hx
  cases x with
  | ok a => exact hk a
  | error f => rfl

theorem outBefore_ite {c : Prop} [Decidable c] {x x' y y' : Except Fault α} (hx : x' = outBefore p g x)
    (hy : y' = outBefore p g y) : (if c then x' else y') = outBefore p g (if c then x else y) := by
  rw [hx, hy, apply_ite (outBefore p g)]

theorem raise_withOutBefore (r : FaultRecord) (s : State) : raise r (s.withOutBefore p) = outBefore p g (raise r s) := by
  cases r <;> rfl

end

/-! ### No step of a cycle reads the output (40_datapath.md R113 to R124) -/

section
variable (p : List Word) (d : Decision) (s : State)

theorem advance_withOutBefore : advance (s.withOutBefore p) = outBefore p (State.withOutBefore p) (advance s) := by
  unfold advance
  simp only [State.withOutBefore_cfg, State.withOutBefore_fsmState, State.withOutBefore_fsmOpcode]
  cases nextState s.cfg.enc s.fsmState s.fsmOpcode with
  | some st => rfl
  | none => exact raise_withOutBefore p _ s

theorem writeStep_withOutBefore (addr : Word) :
    writeStep d addr (s.withOutBefore p) = outBefore p (State.withOutBefore p) (writeStep d addr s) := by
  unfold writeStep
  split
  · exact outBefore_ite p rfl (raise_withOutBefore p _ s)
  · rfl
  · rfl

theorem readStep_withOutBefore (addr : Word) :
    readStep d addr (s.withOutBefore p) = outBefore p id (readStep d addr s) := by
  unfold readStep
  split
  · exact outBefore_ite p (raise_withOutBefore p _ s) rfl
  · exact outBefore_ite p rfl (raise_withOutBefore p _ s)

/-- The word PRINT appends comes after `p` and what `s` had printed. -/
theorem latchStep_withOutBefore (word : Word) :
    latchStep d word (s.withOutBefore p) = (latchStep d word s).withOutBefore p := by
  unfold latchStep
  split
  · split
    · simp only [State.withOutBefore, State.appendOut, State.latch, State.readReg, List.append_assoc]
    · rfl
  · rfl

theorem runAlu_withOutBefore (a b : Word) (f : BitVec 6) :
    runAlu a b f (s.withOutBefore p) = outBefore p (Prod.map id (State.withOutBefore p)) (runAlu a b f s) := by
  unfold runAlu
  rw [State.withOutBefore_cfg]
  cases alu s.cfg.enc a b f with
  | some v => rfl
  | none => exact raise_withOutBefore p _ s

theorem pcStep_withOutBefore (result : Word) :
    pcStep d result (s.withOutBefore p) = (pcStep d result s).withOutBefore p := by
  rw [pcStep, pcStep, apply_ite (State.withOutBefore p)]
  rfl

theorem writebackStep_withOutBefore (during : FsmState) :
    writebackStep d during (s.withOutBefore p) = outBefore p (State.withOutBefore p) (writebackStep d during s) :=
  outBefore_ite p (outBefore_ite p (raise_withOutBefore p _ s) rfl) rfl

/-- A cycle gives the same ports, and the same state with `p` in front. -/
theorem clock_withOutBefore :
    clock (s.withOutBefore p) = outBefore p (Prod.map (State.withOutBefore p) id) (clock s) := by
  unfold clock
  refine outBefore_bind p (advance_withOutBefore p s) fun s1 => ?_
  refine outBefore_bind p (writeStep_withOutBefore p _ s1 _) fun s3 => ?_
  refine outBefore_bind p (readStep_withOutBefore p _ s3 _) fun word => ?_
  rw [id, latchStep_withOutBefore]
  refine outBefore_bind p (runAlu_withOutBefore p _ _ _ _) fun r => ?_
  rw [Prod.map_snd, pcStep_withOutBefore]
  exact outBefore_bind p (writebackStep_withOutBefore p _ _ _) fun s8 => rfl

theorem clocks_withOutBefore (n : Nat) :
    clocks n (s.withOutBefore p) = outBefore p (State.withOutBefore p) (clocks n s) := by
  induction n generalizing s with
  | zero => rfl
  | succ n ih => exact outBefore_bind p (clock_withOutBefore p s) fun r => ih r.1

end

/-! ### The first cycle after `reset()` (10_state.md R44, R45; 70_reset_and_hazards.md R243) -/

/-- A nonempty valid stream holds the word at address 0, since its length is a multiple of 4 (00_scope.md R9). -/
theorem fetchInRange_zero {s : State} (hv : s.cfg.Valid) (hc : s.cfg.code ≠ []) : fetchInRange 0 s = true := by
  obtain ⟨-, -, hcode, -⟩ := hv
  have hpos := List.length_pos_iff.mpr hc
  have hmul := ((codeOk_iff s.cfg).mp hcode).1
  exact decide_eq_true (show 0 + 4 ≤ s.cfg.code.length by omega)

/-- What a `Fetch` cycle leaves depends on no latch of the state it starts in: it writes every one of them (10_state.md R43). -/
theorem fetchCycle_congr {s t : State} (hcfg : s.cfg = t.cfg) (hregs : s.regs = t.regs) (hpc : s.pc = t.pc)
    (hmem : s.mem = t.mem) (hsnap : s.snapshot = t.snapshot) (hout : s.out = t.out) (hfault : s.fault = t.fault)
    (w : Word) : fetchCycle s w = fetchCycle t w := by
  cases s
  cases t
  cases hcfg; cases hregs; cases hpc; cases hmem; cases hsnap; cases hout; cases hfault
  rfl

/-- After `reset()` the first cycle, a `Fetch` within the stream, gives what it gives after construction, with the output kept. -/
theorem clock_resetCore {s : State} (h : s.Inv) (hc : s.cfg.code ≠ []) :
    clock s.resetCore = clock ((State.fresh s.cfg).withOutBefore s.out) := by
  have hr := fetchInRange_zero h.cfgValid hc
  have hcycle : ∀ w, fetchCycle s.resetCore w = fetchCycle ((State.fresh s.cfg).withOutBefore s.out) w :=
    fetchCycle_congr rfl rfl rfl h.snapshotImage h.snapshotImage (List.append_nil _).symm h.noFault
  rw [clock_fetch (s := s.resetCore) rfl hr, clock_fetch (s := (State.fresh s.cfg).withOutBefore s.out) rfl hr, hcycle]
  rfl

/-- Settles O53: the first cycle makes the two runs one but for the output, which no later cycle reads. -/
theorem replayAfterResetIsIdentical : Obligations.ReplayAfterResetIsIdentical := by
  intro s n h hc hn
  have hrun : clocks n s.resetCore = outBefore s.out (State.withOutBefore s.out) (clocks n (State.fresh s.cfg)) := by
    obtain ⟨m, rfl⟩ := Nat.exists_eq_succ_of_ne_zero hn.ne'
    rw [← clocks_withOutBefore, clocks, clocks, clock_resetCore h hc]
  refine ⟨fun t ht => ?_, fun f hf => ?_⟩
  · rw [hrun, ht]
    rfl
  · refine ⟨f.withOutBefore s.out, ?_, Fault.withOutBefore_record .., Fault.withOutBefore_stopped ..⟩
    rw [hrun, hf]
    rfl

end Sys2Proof.Machine
